-- ==== Sys2Proof/Word.lean ====
section
/-! DEFINITION. The numbers of the hardware: bytes, and unsigned `XLEN`-bit words, which are held as natural numbers. -/

namespace Sys2Proof

/-- A byte of memory is 8 bits (20_memory.md R30). -/
abbrev Byte := BitVec 8

/-- The number is an unsigned number of `bits` bits. An operand, a result, an offset, a size or an address is an
unsigned `XLEN`-bit number (30_encoding.md R53). The rules compute on these over the mathematical integers and
nothing wraps (00_scope.md R9, 41_ring_queries.md R89), and `XLEN` is a build parameter, so a word is held as a
`Nat`; that it fits is a check here and an invariant of the state (`State.Inv`). DESIGN CHOICE, log 6. -/
def Word.fits (bits : Nat) (v : Nat) : Bool := decide (v < 2 ^ bits)

theorem Word.fits_iff (bits v : Nat) : Word.fits bits v = true ↔ v < 2 ^ bits := by
  simp [Word.fits]

end Sys2Proof
end

