-- ==== Sys2Proof/Config.lean ====
section
/-! DEFINITION. The five build parameters of 00_scope.md R5, their constraints, and the reference configuration REF. -/

namespace Sys2Proof

/-- `XLEN`, the width of every offset, size, address and operand: one of three values (R5). -/
inductive XLen where
  | x16
  | x32
  | x64
deriving DecidableEq, Repr

/-- `XLEN` as a number of bits. -/
def XLen.bits : XLen → Nat
  | .x16 => 16
  | .x32 => 32
  | .x64 => 64

/-- `VLEN`, the widest copy tier: the three strategies of the source and the scalar-only configuration
(R5, R6, 90_conflicts.md C4). -/
inductive VLen where
  | v512
  | v256
  | v128
  | v64
deriving DecidableEq, Repr

/-- `VLEN` as a number of bits. -/
def VLen.bits : VLen → Nat
  | .v512 => 512
  | .v256 => 256
  | .v128 => 128
  | .v64 => 64

/-- The build parameters (R5). They are fixed when the block is built; the model holds them in `State` as data
that no step changes, so that every statement is about every configuration. DESIGN CHOICE, log 1. -/
structure Config where
  /-- `XLEN`. -/
  xlen : XLen
  /-- `MEM_BYTES`: the valid addresses are `0 .. MEM_BYTES - 1`. -/
  memBytes : Nat
  /-- `STORAGE_BASE`: the address of position 0 of the ring storage. -/
  storageBase : Nat
  /-- `STORAGE_BYTES`: the largest capacity that can be constructed. -/
  storageBytes : Nat
  /-- `VLEN`. -/
  vlen : VLen
deriving DecidableEq, Repr

/-- The constraints of R5. A configuration that breaks one is no configuration of this hardware
(93_implementation_defined.md U28). -/
abbrev Config.valid (c : Config) : Prop :=
  1 ≤ c.memBytes ∧ c.memBytes ≤ 2 ^ c.xlen.bits ∧
  c.storageBase + c.storageBytes ≤ c.memBytes ∧
  1 ≤ c.storageBytes ∧ c.storageBytes ≤ 2 ^ c.xlen.bits - 1

/-- The reference configuration REF (R5). -/
def Config.ref : Config :=
  { xlen := .x32, memBytes := 0x10000, storageBase := 0x8000, storageBytes := 0x1000, vlen := .v512 }

end Sys2Proof
end

