-- ==== Sys2Proof/Syntax.lean ====
section
/-! DEFINITION. The commands of RBC-1 as syntax: the fourteen opcodes, the three operand formats, the instruction
type, and the command and response records of the two ports (30_encoding.md). -/

namespace Sys2Proof

/-- The three operand formats (30_encoding.md R51). -/
inductive Format where
  /-- No operand: `a`, `b` and `c` must be zero. -/
  | Z
  /-- One operand, `a`: `b` and `c` must be zero. -/
  | A
  /-- Three operands. -/
  | ABC
deriving DecidableEq, Repr

/-- The rows of the opcode map (30_encoding.md R55). -/
inductive Opcode where
  | construct
  | destroy
  | status
  | isEmpty
  | filled
  | free
  | capacity
  | headToEnd
  | tailToEnd
  | nextHead
  | nextTail
  | advHead
  | advTail
  | copy
deriving DecidableEq, Repr

/-- The fourteen commands with their operands, one constructor per row of spec/opcode_table.json. -/
inductive Instr where
  /-- `CONSTRUCT capacity` (R70). -/
  | construct (capacity : Nat)
  /-- `DESTROY` (R71). -/
  | destroy
  /-- `STATUS` (R72). -/
  | status
  /-- `IS_EMPTY` (R80). -/
  | isEmpty
  /-- `FILLED` (R81). -/
  | filled
  /-- `FREE` (R82). -/
  | free
  /-- `CAPACITY` (R83). -/
  | capacity
  /-- `HEAD_TO_END` (R84). -/
  | headToEnd
  /-- `TAIL_TO_END` (R85). -/
  | tailToEnd
  /-- `NEXT_HEAD offset` (R86). -/
  | nextHead (offset : Nat)
  /-- `NEXT_TAIL offset` (R87). -/
  | nextTail (offset : Nat)
  /-- `ADV_HEAD n` (R100). -/
  | advHead (n : Nat)
  /-- `ADV_TAIL n` (R101). -/
  | advTail (n : Nat)
  /-- `COPY dst, src, size` (R110). -/
  | copy (dst src size : Nat)
deriving DecidableEq, Repr

/-- The opcode-map row an instruction belongs to. -/
def Instr.opcode : Instr → Opcode
  | .construct _ => .construct
  | .destroy => .destroy
  | .status => .status
  | .isEmpty => .isEmpty
  | .filled => .filled
  | .free => .free
  | .capacity => .capacity
  | .headToEnd => .headToEnd
  | .tailToEnd => .tailToEnd
  | .nextHead _ => .nextHead
  | .nextTail _ => .nextTail
  | .advHead _ => .advHead
  | .advTail _ => .advTail
  | .copy _ _ _ => .copy

/-- The command record: the four fields of R50, "the tuple `(op, a, b, c)`". -/
structure Command where
  op : Byte
  a : Nat
  b : Nat
  c : Nat
deriving DecidableEq, Repr

/-- The response record: the three fields of R52. -/
structure Response where
  op : Byte
  status : Byte
  value : Nat
deriving DecidableEq, Repr

/-- The nine causes of a fault response, by the names of 60_exceptions.md R130. -/
inductive FaultCode where
  /-- Reserved opcode, or a must-be-zero operand field that is not zero. -/
  | eIllegal
  /-- `CONSTRUCT` with capacity 0. -/
  | eConfig
  /-- `CONSTRUCT` with a capacity above `STORAGE_BYTES`. -/
  | eResource
  /-- A ring command with `VALID = 0`. -/
  | eNotConstructed
  /-- `CONSTRUCT` with `VALID = 1`. -/
  | eAlreadyConstructed
  /-- `ADV_HEAD` by `free` or more. -/
  | eOverrun
  /-- `ADV_TAIL` by more than `filled`. -/
  | eUnderrun
  /-- `COPY` with a region that does not lie inside `MEM`. -/
  | eBounds
  /-- `COPY` with regions that share a byte. -/
  | eAlias
deriving DecidableEq, Repr

end Sys2Proof
end

