-- ==== Sys2Proof/WellFormed.lean ====
section
/-! DEFINITION. Well-formedness of instructions: every operand is an unsigned `XLEN`-bit number (30_encoding.md R53). -/

namespace Sys2Proof

/-- Each operand of the instruction fits its `XLEN`-bit field. -/
def Instr.wf (x : XLen) : Instr → Bool
  | .construct n => Word.fits x.bits n
  | .destroy => true
  | .status => true
  | .isEmpty => true
  | .filled => true
  | .free => true
  | .capacity => true
  | .headToEnd => true
  | .tailToEnd => true
  | .nextHead offset => Word.fits x.bits offset
  | .nextTail offset => Word.fits x.bits offset
  | .advHead n => Word.fits x.bits n
  | .advTail n => Word.fits x.bits n
  | .copy dst src size => Word.fits x.bits dst && Word.fits x.bits src && Word.fits x.bits size

/-- Each operand field of a command record is an `XLEN`-bit number (R50). -/
def Command.wf (x : XLen) (k : Command) : Bool :=
  Word.fits x.bits k.a && Word.fits x.bits k.b && Word.fits x.bits k.c

end Sys2Proof
end

