-- ==== Sys2Proof/Decode.lean ====
section
/-! DEFINITION. The command word and the response word as numbers, the opcode map, the decoder, and the encoder
(30_encoding.md). -/

namespace Sys2Proof

/-- The field `w[lo + width - 1 : lo]` as an unsigned number (00_scope.md R9). -/
def bitField (lo width w : Nat) : Nat := w / 2 ^ lo % 2 ^ width

/-- The number of bits of a command word, `8 + 3 * XLEN` (R50). -/
def commandBits (x : XLen) : Nat := 8 + 3 * x.bits

/-- The number of bits of a response word, `16 + XLEN` (R52). -/
def responseBits (x : XLen) : Nat := 16 + x.bits

/-- The four fields of a command word (R50). A command word has `commandBits x` bits: bits of the number above
those are not on the port and are not looked at (log 7). -/
def Command.ofWord (x : XLen) (w : Nat) : Command :=
  { op := BitVec.ofNat 8 (bitField 0 8 w)
    a := bitField 8 x.bits w
    b := bitField (x.bits + 8) x.bits w
    c := bitField (2 * x.bits + 8) x.bits w }

/-- The command word of a record: `{c, b, a, op}` (R50). -/
def Command.toWord (x : XLen) (k : Command) : Nat :=
  k.op.toNat + k.a * 2 ^ 8 + k.b * 2 ^ (x.bits + 8) + k.c * 2 ^ (2 * x.bits + 8)

/-- The three fields of a response word (R52). -/
def Response.ofWord (x : XLen) (w : Nat) : Response :=
  { op := BitVec.ofNat 8 (bitField 0 8 w)
    status := BitVec.ofNat 8 (bitField 8 8 w)
    value := bitField 16 x.bits w }

/-- The response word of a record: `{value, status, op}` (R52). -/
def Response.toWord (r : Response) : Nat :=
  r.op.toNat + r.status.toNat * 2 ^ 8 + r.value * 2 ^ 16

/-- The opcode byte of each row of the opcode map (R55). -/
def Opcode.code : Opcode → Byte
  | .construct => 0x01
  | .destroy => 0x02
  | .status => 0x03
  | .isEmpty => 0x10
  | .filled => 0x11
  | .free => 0x12
  | .capacity => 0x13
  | .headToEnd => 0x14
  | .tailToEnd => 0x15
  | .nextHead => 0x16
  | .nextTail => 0x17
  | .advHead => 0x20
  | .advTail => 0x21
  | .copy => 0x30

/-- The rows of the opcode map, in its order (R55). -/
def opcodeMap : List Opcode :=
  [.construct, .destroy, .status, .isEmpty, .filled, .free, .capacity, .headToEnd, .tailToEnd,
   .nextHead, .nextTail, .advHead, .advTail, .copy]

/-- Looking an opcode byte up in the opcode map: every value not listed is reserved (R56). -/
def Opcode.ofCode (op : Byte) : Option Opcode := opcodeMap.find? (fun o => o.code == op)

/-- "The format of a command is determined by its opcode alone" (R51). -/
def Opcode.format : Opcode → Format
  | .construct => .A
  | .destroy => .Z
  | .status => .Z
  | .isEmpty => .Z
  | .filled => .Z
  | .free => .Z
  | .capacity => .Z
  | .headToEnd => .Z
  | .tailToEnd => .Z
  | .nextHead => .A
  | .nextTail => .A
  | .advHead => .A
  | .advTail => .A
  | .copy => .ABC

/-- Every field that the format says must be zero is zero (R51, R57). -/
def Format.accepts (f : Format) (k : Command) : Bool :=
  match f with
  | .Z => k.a == 0 && k.b == 0 && k.c == 0
  | .A => k.b == 0 && k.c == 0
  | .ABC => true

/-- The instruction of an opcode with the operand fields its format uses (R55). -/
def Opcode.instr (o : Opcode) (k : Command) : Instr :=
  match o with
  | .construct => .construct k.a
  | .destroy => .destroy
  | .status => .status
  | .isEmpty => .isEmpty
  | .filled => .filled
  | .free => .free
  | .capacity => .capacity
  | .headToEnd => .headToEnd
  | .tailToEnd => .tailToEnd
  | .nextHead => .nextHead k.a
  | .nextTail => .nextTail k.a
  | .advHead => .advHead k.a
  | .advTail => .advTail k.a
  | .copy => .copy k.a k.b k.c

/-- Why a command word is illegal. Both raise `E_ILLEGAL`, in this order (60_exceptions.md R132). -/
inductive DecodeError where
  /-- The opcode is not one of the fourteen (R56). -/
  | reservedOpcode (op : Byte)
  /-- The opcode is legal and a field its format does not use is not zero (R57). -/
  | nonzeroField (op : Byte)
deriving DecidableEq, Repr

/-- Decoding a command record: first the opcode, then the fields that must be zero (R54). -/
def decodeCommand (k : Command) : Except DecodeError Instr :=
  match Opcode.ofCode k.op with
  | none => .error (.reservedOpcode k.op)
  | some o => if o.format.accepts k then .ok (o.instr k) else .error (.nonzeroField k.op)

/-- Decoding a command word; it looks at nothing but the word (R54). -/
def decode (x : XLen) (w : Nat) : Except DecodeError Instr := decodeCommand (Command.ofWord x w)

/-- The command record of an instruction, unused fields zero (R55). -/
def Instr.command (i : Instr) : Command :=
  match i with
  | .construct n => { op := i.opcode.code, a := n, b := 0, c := 0 }
  | .destroy => { op := i.opcode.code, a := 0, b := 0, c := 0 }
  | .status => { op := i.opcode.code, a := 0, b := 0, c := 0 }
  | .isEmpty => { op := i.opcode.code, a := 0, b := 0, c := 0 }
  | .filled => { op := i.opcode.code, a := 0, b := 0, c := 0 }
  | .free => { op := i.opcode.code, a := 0, b := 0, c := 0 }
  | .capacity => { op := i.opcode.code, a := 0, b := 0, c := 0 }
  | .headToEnd => { op := i.opcode.code, a := 0, b := 0, c := 0 }
  | .tailToEnd => { op := i.opcode.code, a := 0, b := 0, c := 0 }
  | .nextHead offset => { op := i.opcode.code, a := offset, b := 0, c := 0 }
  | .nextTail offset => { op := i.opcode.code, a := offset, b := 0, c := 0 }
  | .advHead n => { op := i.opcode.code, a := n, b := 0, c := 0 }
  | .advTail n => { op := i.opcode.code, a := n, b := 0, c := 0 }
  | .copy dst src size => { op := i.opcode.code, a := dst, b := src, c := size }

/-- The command word of an instruction (R50, R55). -/
def encode (x : XLen) (i : Instr) : Nat := i.command.toWord x

/-- The instruction the decoder reads, at the reference configuration's `XLEN = 32`, from the command word whose
`nbits` low bits are `w`'s and whose other bits are zero; `none` where the word is illegal. -/
def decodeTableWord (nbits w : Nat) : Option Instr :=
  match decode Config.ref.xlen (w % 2 ^ nbits) with
  | .ok i => some i
  | .error _ => none

end Sys2Proof
end

