-- ==== Sys2Proof/Machine/State.lean ====
section
/-! DEFINITION. The state of the machine as plain data, its values after reset, and the reasons a step can stop. -/

namespace Sys2Proof.Machine

/-- `MEM` (20_memory.md R30): the listed cells, and what every byte that no cell names reads as. The canonical form
is `Memory.wf` in Machine/Ops.lean. The contents after reset are unspecified (R40): any contents at all are some
list of cells over any `unwritten`. DESIGN CHOICE, log 2. -/
structure Memory where
  /-- What an unlisted byte reads as, a part of the launch memory. -/
  unwritten : Byte
  /-- The bytes that differ from it, by rising address. -/
  cells : List Host.Cell
deriving DecidableEq, Repr

/-- The two kinds of transaction on the memory port (30_encoding.md R62). -/
inductive BeatKind where
  | read
  | write
deriving DecidableEq, Repr

/-- One beat: a whole chunk read or written at an address (43_tiered_copy.md R118). Element `k` of `data` is byte
`k` of the staging register `V` (20_memory.md R34); the beat's width is the number of its bytes. -/
structure Beat where
  kind : BeatKind
  addr : Nat
  data : List Byte
deriving DecidableEq, Repr

/-- What can come from outside the block. -/
inductive Input where
  /-- A command word is presented on the command port (30_encoding.md R50, R62). -/
  | command (w : Nat)
  /-- `rst` is asserted between commands (70_reset_and_hazards.md R150). -/
  | reset
  /-- A command word is presented and `rst` arrives while it executes (R151). If it is a `COPY` past its checks,
  `landed` names the bytes of its destination, counted from 0, that hold the copied value afterwards, and `issued` is
  how many of its beats, in their order, were issued before the reset. Log 10. -/
  | resetDuring (w : Nat) (landed : List Nat) (issued : Nat)
  /-- The host writes a byte of `MEM` between commands (20_memory.md R44). -/
  | hostWrite (a : Nat) (v : Byte)
  /-- The host reads a byte of `MEM` between commands (R44). -/
  | hostRead (a : Nat)
  /-- The word of a `COPY` is presented and the host touches bytes of its two regions, by a path outside the block,
  before the response (70_reset_and_hazards.md R154). `seen` lists bytes of the regions with what the host had put
  there when the `COPY` came to them, `ends` such bytes with what they hold afterwards, `reads` what the host's own
  reads of such bytes returned; none of it is specified. Log 11. -/
  | racedCopy (w : Nat) (seen ends reads : List Host.Cell)
deriving DecidableEq, Repr

/-- The whole state: build parameters, the five registers (10_state.md R10), `MEM`, and for each port the list of
its transactions. -/
structure State where
  /-- The build parameters (00_scope.md R5). No step changes them. Log 1. -/
  cfg : Config
  /-- `VALID`: a ring object exists (R11). -/
  valid : Bool
  /-- `CAP` (R12). -/
  cap : Nat
  /-- `HEAD`, the next write position (R13). -/
  head : Nat
  /-- `TAIL`, the next read position (R14). -/
  tail : Nat
  /-- `ERR`, the code of the first fault since reset, or 0x00 (R22). -/
  err : Byte
  /-- `MEM` (20_memory.md R30). -/
  mem : Memory
  /-- The events from outside not yet taken, the next one first. Log 3. -/
  inputs : List Input
  /-- The responses given on the response port, oldest first (30_encoding.md R52, R62). Log 4. -/
  responses : List Response
  /-- The beats issued on the memory port, oldest first (43_tiered_copy.md R118). Log 5. -/
  beats : List Beat
  /-- What the host's own reads returned, oldest first (20_memory.md R43, R44). Log 16. -/
  hostReads : List Host.Cell
deriving DecidableEq, Repr

/-- Why the machine stops. No command ever raises one: "every command word, in every state, has a defined
response" (93_implementation_defined.md section 2). -/
inductive Fault where
  /-- Raised by the host-access events of Machine/Inputs.lean: the host reads or writes an address at or above
  `MEM_BYTES`, where there is nothing (20_memory.md R38). Safe: the run stops. Log 8. -/
  | hostAccessOutsideMem (a : Nat)
deriving DecidableEq, Repr

/-- Why a step has no meaning. -/
inductive Refusal where
  /-- Raised by an arm of `exec` whose instruction has no meaning yet. Safe. No arm raises it. -/
  | notModelled (mnemonic : String)
  /-- Raised by `step`: the build parameters break 00_scope.md R5, "not a configuration of this hardware"
  (93_implementation_defined.md U28). Safe: the run stops. Log 9. -/
  | illegalConfiguration
  /-- Raised by the event `Input.racedCopy` of Machine/Inputs.lean when its word is no `COPY` past its checks: there
  is then no copy in flight to race with, so the event is no event of this hardware. Safe: the run stops. Log 11. -/
  | noCopyInFlight
deriving DecidableEq, Repr

/-- The memory with nothing listed. The value of `unwritten` is a DESIGN CHOICE (log 2); no statement rests on it. -/
def Memory.blank : Memory := { unwritten := 0xA5, cells := [] }

/-- The machine right after reset (10_state.md R28) in the configuration `c`, with `m` as the launch memory that
20_memory.md R40 leaves unspecified, and nothing yet on any port. -/
def State.launch (c : Config) (m : Memory) : State :=
  { cfg := c
    valid := false
    cap := 0
    head := 0
    tail := 0
    err := 0x00
    mem := m
    inputs := []
    responses := []
    beats := []
    hostReads := [] }

/-- The machine right after reset (R28) in the reference configuration (log 1) with nothing listed in memory. -/
def State.reset : State := State.launch Config.ref Memory.blank

end Sys2Proof.Machine
end

