-- ==== Sys2Proof/Machine/Ring.lean ====
section
/-! DEFINITION. The derived quantities of the ring, 10_state.md R15 to R19: functions of `CAP`, `HEAD`, `TAIL`. -/

namespace Sys2Proof.Machine

/-- The number of bytes held, by the document's two-branch formula (R15). -/
def ringFilled (cap head tail : Nat) : Nat :=
  if tail ≤ head then head - tail else cap - (tail - head)

/-- The position `k` bytes ahead of `p`, over the mathematical integers: nothing wraps at `2 ^ XLEN`
(R19, R21, 90_conflicts.md C9). -/
def ringWrap (cap p k : Nat) : Nat := (p + k) % cap

/-- `filled` (R15). -/
def State.filled (s : State) : Nat := ringFilled s.cap s.head s.tail

/-- `free` (R16). -/
def State.free (s : State) : Nat := s.cap - s.filled

/-- `head_to_end` (R17). -/
def State.headToEnd (s : State) : Nat := s.cap - s.head

/-- `tail_to_end` (R18). -/
def State.tailToEnd (s : State) : Nat := s.cap - s.tail

/-- `wrap(p, k)` (R19). -/
def State.wrap (s : State) (p k : Nat) : Nat := ringWrap s.cap p k

end Sys2Proof.Machine
end

