-- ==== Sys2Proof/Machine/Flags.lean ====
section
/-! DEFINITION. The conditions and status values: there is no flag register (10_state.md R25), so these are the
comparisons, the fault codes, the update of `ERR` and the word that `STATUS` reports. -/

namespace Sys2Proof.Machine

/-- Empty is the comparison `HEAD = TAIL` and is not stored (R25, 41_ring_queries.md R80). -/
def State.isEmpty (s : State) : Bool := s.head == s.tail

/-- Full is `free = 1` under the reserve-one-byte policy (10_state.md R23, 30_encoding.md R61). -/
def State.isFull (s : State) : Bool := s.free == 1

/-- A Boolean result: 0 or 1, zero-extended (30_encoding.md R53). -/
def boolWord (b : Bool) : Nat := if b then 1 else 0

/-- The status byte of success (60_exceptions.md R130). -/
def statusOk : Byte := 0x00

/-- The status byte of each fault (R130). -/
def faultCode (f : FaultCode) : Byte :=
  match f with
  | .eIllegal => 0x01
  | .eConfig => 0x02
  | .eResource => 0x03
  | .eNotConstructed => 0x04
  | .eAlreadyConstructed => 0x05
  | .eOverrun => 0x06
  | .eUnderrun => 0x07
  | .eBounds => 0x08
  | .eAlias => 0x09

/-- `ERR` after a fault with code `k`: the first code since reset stays (60_exceptions.md R134). -/
def errAfter (err k : Byte) : Byte := if err = 0x00 then k else err

/-- The value `STATUS` reports: `{ERR[7:0], 0b0000000, VALID}` zero-extended (40_lifecycle.md R72). -/
def statusWord (valid : Bool) (err : Byte) : Nat := err.toNat * 2 ^ 8 + boolWord valid

end Sys2Proof.Machine
end

