-- ==== Sys2Proof/Machine/Operands.lean ====
section
/-! DEFINITION. What the operands of `COPY` and the positions of the ring stand for: regions of `MEM`, the checks
made on them, storage addresses, and the lanes of the staging register. -/

namespace Sys2Proof.Machine

/-- The address of a ring position (20_memory.md R32). -/
def positionAddress (c : Config) (p : Nat) : Nat := c.storageBase + p

/-- The region of `size` bytes at `a` lies inside `MEM`; the sum is over the integers (43_tiered_copy.md R113). -/
def regionInside (c : Config) (a size : Nat) : Bool := decide (a + size ≤ c.memBytes)

/-- Both regions of a `COPY` lie inside `MEM` (R113). -/
def copyInBounds (c : Config) (dst src size : Nat) : Bool :=
  regionInside c src size && regionInside c dst size

/-- The regions share a byte (R114). -/
def regionsOverlap (dst src size : Nat) : Bool :=
  decide (dst < src + size) && decide (src < dst + size)

/-- The staging register `V` as a number: byte `k` of the chunk is `V[8k+7 : 8k]` (20_memory.md R34). -/
def stagingWord : List Byte → Nat
  | [] => 0
  | v :: vs => v.toNat + 2 ^ 8 * stagingWord vs

/-- Byte `k` of the staging register, `V[8k+7 : 8k]` (R34). -/
def stagingLane (V k : Nat) : Byte := BitVec.ofNat 8 (V / 2 ^ (8 * k))

/-- The bytes `0 .. w - 1` of the staging register, which a write beat of width `w` stores (R34). -/
def stagingLanes (V w : Nat) : List Byte := (List.range w).map (stagingLane V)

end Sys2Proof.Machine
end

