-- ==== Sys2Proof/Machine/Ops.lean ====
section
/-! DEFINITION. The named operations over memory and registers: `MemRead` and `MemWrite`, giving an `OK` response,
raising a fault, and the reset event. -/

namespace Sys2Proof.Machine

/-! ### Memory -/

/-- The canonical form: addresses strictly rising, and no entry equal to what an unlisted byte reads as. -/
abbrev Memory.wf (m : Memory) : Prop :=
  m.cells.Pairwise (fun p q => p.1 < q.1) ∧ ∀ p ∈ m.cells, p.2 ≠ m.unwritten

/-- Every listed address is an address of `MEM` (20_memory.md R30). -/
abbrev Memory.inside (m : Memory) (memBytes : Nat) : Prop := ∀ p ∈ m.cells, p.1 < memBytes

/-- The byte listed for an address, if one is. -/
def cellsFind : List Host.Cell → Nat → Option Byte
  | [], _ => none
  | p :: ps, a => if p.1 = a then some p.2 else cellsFind ps a

/-- List a byte for an address, in its place by rising address. -/
def cellsInsert : List Host.Cell → Nat → Byte → List Host.Cell
  | [], a, v => [(a, v)]
  | p :: ps, a, v =>
    if p.1 < a then p :: cellsInsert ps a v
    else if p.1 = a then (a, v) :: ps
    else (a, v) :: p :: ps

/-- `MEM[a]` (00_scope.md R9). -/
def Memory.read (m : Memory) (a : Nat) : Byte := (cellsFind m.cells a).getD m.unwritten

/-- `MEM[a] <- v`, in canonical form. -/
def Memory.write (m : Memory) (a : Nat) (v : Byte) : Memory :=
  { m with cells := if v = m.unwritten then m.cells.filter (fun p => p.1 != a) else cellsInsert m.cells a v }

/-- `MemRead(a, n)`: the bytes `MEM[a], MEM[a+1], ..., MEM[a+n-1]` (R9). -/
def Memory.readBytes (m : Memory) (a : Nat) : Nat → List Byte
  | 0 => []
  | n + 1 => m.read a :: m.readBytes (a + 1) n

/-- `MemWrite(a, n, v)`: `MEM[a+k] <- v[k]` (R9). -/
def Memory.writeBytes (m : Memory) (a : Nat) : List Byte → Memory
  | [] => m
  | v :: vs => (m.write a v).writeBytes (a + 1) vs

/-! ### Registers and ports -/

/-- `VALID`, `CAP`, `HEAD` and `TAIL` take new values. -/
def State.setRing (s : State) (valid : Bool) (cap head tail : Nat) : State :=
  { s with valid := valid, cap := cap, head := head, tail := tail }

/-- `HEAD <- p`. -/
def State.setHead (s : State) (p : Nat) : State := { s with head := p }

/-- `TAIL <- p`. -/
def State.setTail (s : State) (p : Nat) : State := { s with tail := p }

/-- `MEM` takes new contents. -/
def State.setMem (s : State) (m : Memory) : State := { s with mem := m }

/-- Beats are recorded on the memory port (43_tiered_copy.md R118). -/
def State.recordBeats (s : State) (bs : List Beat) : State := { s with beats := s.beats ++ bs }

/-- The events still to come. -/
def State.setInputs (s : State) (is : List Input) : State := { s with inputs := is }

/-- A read of the host's is recorded (20_memory.md R44). -/
def State.recordHostRead (s : State) (a : Nat) (v : Byte) : State :=
  { s with hostReads := s.hostReads ++ [(a, v)] }

/-- Several reads of the host's are recorded (70_reset_and_hazards.md R154). -/
def State.recordHostReads (s : State) (ps : List Host.Cell) : State := { s with hostReads := s.hostReads ++ ps }

/-- `respond(v)`: the response `(cmd.op, OK, v)` (00_scope.md R9, 30_encoding.md R52). -/
def State.respond (s : State) (op : Byte) (v : Nat) : State :=
  { s with responses := s.responses ++ [{ op := op, status := statusOk, value := v }] }

/-- `raise f(cmd.a)`, the one shared operation of taking a fault: the response `(cmd.op, code, cmd.a)`
(60_exceptions.md R133), `ERR` updated by R134, and nothing else changed (R135). There is no return from it: the
next command is decoded and executed by the same rules (R137). -/
def State.raise (s : State) (op : Byte) (f : FaultCode) (a : Nat) : State :=
  { s with
    err := errAfter s.err (faultCode f)
    responses := s.responses ++ [{ op := op, status := faultCode f, value := a }] }

/-- The state check of every ring command: with `VALID = 0` it raises `E_NOT_CONSTRUCTED` (60_exceptions.md R132). -/
def State.requireRing (s : State) (op : Byte) (a : Nat) (t : State) : State :=
  if s.valid then t else s.raise op .eNotConstructed a

/-- The reset event on the registers: `VALID = 0, CAP = 0, HEAD = 0, TAIL = 0, ERR = 0x00`, no byte of `MEM`
written (10_state.md R28, 70_reset_and_hazards.md R150). -/
def State.resetRegisters (s : State) : State :=
  { s with valid := false, cap := 0, head := 0, tail := 0, err := 0x00 }

end Sys2Proof.Machine
end

