-- ==== Sys2Proof/Machine/Advance.lean ====
section
/-! DEFINITION. The two ring advances, 42_ring_advance.md. -/

namespace Sys2Proof.Machine

/-- `ADV_HEAD n` (R100): allowed for `n ≤ free - 1`, the reserve-one-byte policy; the answer is the new `HEAD`. -/
def execAdvHead (n : Nat) (s : State) : Host.Outcome State Fault Refusal :=
  .next (s.requireRing Opcode.advHead.code n
    (if s.free ≤ n then s.raise Opcode.advHead.code .eOverrun n
     else (s.setHead (s.wrap s.head n)).respond Opcode.advHead.code (s.wrap s.head n)))

/-- `ADV_TAIL n` (R101): allowed for `n ≤ filled`; the answer is the new `TAIL`. -/
def execAdvTail (n : Nat) (s : State) : Host.Outcome State Fault Refusal :=
  .next (s.requireRing Opcode.advTail.code n
    (if s.filled < n then s.raise Opcode.advTail.code .eUnderrun n
     else (s.setTail (s.wrap s.tail n)).respond Opcode.advTail.code (s.wrap s.tail n)))

end Sys2Proof.Machine
end

