-- ==== Sys2Proof/Machine/Copy.lean ====
section
/-! DEFINITION. The tiered copy, 43_tiered_copy.md: the widths present, the chunk schedule, the beats, and the
command `COPY`. -/

namespace Sys2Proof.Machine

/-- The chunk widths in cascade order, in bytes; there is no 2-byte chunk (R115, 20_memory.md R36). -/
def copyWidths : List Nat := [64, 32, 16, 8, 4, 1]

/-- The widths a block built with `v` has: those with `8 * w ≤ VLEN` (R115). -/
def widthsPresent (v : VLen) : List Nat := copyWidths.filter (fun w => decide (8 * w ≤ v.bits))

/-- The chunk schedule (R116): at each width, one chunk again and again while `rem ≥ w`, and the rest handed to the
next narrower width. The loop "while `rem ≥ w`" runs `rem / w` times and leaves `rem % w` (log 14). -/
def schedule : List Nat → Nat → List Nat
  | [], _ => []
  | w :: ws, rem => List.replicate (rem / w) w ++ schedule ws (rem % w)

/-- The read beat and the write beat of a chunk (R118). -/
def chunkBeats (src dst : Nat) (V : List Byte) : List Beat :=
  [{ kind := .read, addr := src, data := V }, { kind := .write, addr := dst, data := V }]

/-- Chunks moved in schedule order from offset `off` on: `V <- MemRead(src + off, w)`, then
`MemWrite(dst + off, w, V)` (R110, R118, R119). The result is `MEM` and the beats. -/
def moveChunks (dst src : Nat) : Nat → List Nat → Memory → Memory × List Beat
  | _, [], m => (m, [])
  | off, w :: ws, m =>
    let V := m.readBytes (src + off) w
    let r := moveChunks dst src (off + w) ws (m.writeBytes (dst + off) V)
    (r.1, chunkBeats (src + off) (dst + off) V ++ r.2)

/-- The whole movement of one `COPY` past its checks. -/
def copyMove (v : VLen) (dst src size : Nat) (m : Memory) : Memory × List Beat :=
  moveChunks dst src 0 (schedule (widthsPresent v) size) m

/-- A `COPY` that moves bytes: not empty, in bounds, not overlapping (R111, R113, R114). -/
def copyMoves (c : Config) (dst src size : Nat) : Bool :=
  size != 0 && copyInBounds c dst src size && !regionsOverlap dst src size

/-- `COPY dst, src, size` (R110): it reads and writes none of `VALID`, `CAP`, `HEAD`, `TAIL` (R122). -/
def execCopy (dst src size : Nat) (s : State) : Host.Outcome State Fault Refusal :=
  if size = 0 then .next (s.respond Opcode.copy.code dst)
  else if copyInBounds s.cfg dst src size = false then .next (s.raise Opcode.copy.code .eBounds dst)
  else if regionsOverlap dst src size then .next (s.raise Opcode.copy.code .eAlias dst)
  else
    let r := copyMove s.cfg.vlen dst src size s.mem
    .next (((s.setMem r.1).recordBeats r.2).respond Opcode.copy.code dst)

/-- What a `COPY` cut short by reset leaves in `MEM`: the destination bytes that landed, and only those, hold the
value the completed command would have given them (70_reset_and_hazards.md R151). -/
def copyLanded (dst src size : Nat) (m : Memory) : List Nat → Memory
  | [] => m
  | k :: ks =>
    let t := copyLanded dst src size m ks
    if k < size then t.write (dst + k) (m.read (src + k)) else t

end Sys2Proof.Machine
end

