-- ==== Sys2Proof/Machine/Lifecycle.lean ====
section
/-! DEFINITION. The lifecycle commands, 40_lifecycle.md. -/

namespace Sys2Proof.Machine

/-- `CONSTRUCT capacity` (R70): the checks in the order of 60_exceptions.md R132, then the empty ring. No byte of
`MEM` is written and `ERR` is not cleared. -/
def execConstruct (capacity : Nat) (s : State) : Host.Outcome State Fault Refusal :=
  if s.valid then .next (s.raise Opcode.construct.code .eAlreadyConstructed capacity)
  else if capacity = 0 then .next (s.raise Opcode.construct.code .eConfig capacity)
  else if s.cfg.storageBytes < capacity then .next (s.raise Opcode.construct.code .eResource capacity)
  else .next ((s.setRing true capacity 0 0).respond Opcode.construct.code capacity)

/-- `DESTROY` (R71). No byte of `MEM` is written and `ERR` is not cleared. -/
def execDestroy (s : State) : Host.Outcome State Fault Refusal :=
  .next (s.requireRing Opcode.destroy.code 0 ((s.setRing false 0 0 0).respond Opcode.destroy.code 0))

/-- `STATUS` (R72): legal whatever `VALID` is, a pure read. -/
def execStatus (s : State) : Host.Outcome State Fault Refusal :=
  .next (s.respond Opcode.status.code (statusWord s.valid s.err))

end Sys2Proof.Machine
end

