-- ==== Sys2Proof/Machine/Queries.lean ====
section
/-! DEFINITION. The eight ring queries, 41_ring_queries.md. -/

namespace Sys2Proof.Machine

/-- What the eight queries share: a constructed ring is required, and then the answer is given and nothing is
written (R88). -/
def State.query (s : State) (op : Byte) (a v : Nat) : State := s.requireRing op a (s.respond op v)

/-- `IS_EMPTY` (R80). -/
def execIsEmpty (s : State) : Host.Outcome State Fault Refusal :=
  .next (s.query Opcode.isEmpty.code 0 (boolWord s.isEmpty))

/-- `FILLED` (R81). -/
def execFilled (s : State) : Host.Outcome State Fault Refusal :=
  .next (s.query Opcode.filled.code 0 s.filled)

/-- `FREE` (R82). -/
def execFree (s : State) : Host.Outcome State Fault Refusal :=
  .next (s.query Opcode.free.code 0 s.free)

/-- `CAPACITY` (R83). -/
def execCapacity (s : State) : Host.Outcome State Fault Refusal :=
  .next (s.query Opcode.capacity.code 0 s.cap)

/-- `HEAD_TO_END` (R84). -/
def execHeadToEnd (s : State) : Host.Outcome State Fault Refusal :=
  .next (s.query Opcode.headToEnd.code 0 s.headToEnd)

/-- `TAIL_TO_END` (R85). -/
def execTailToEnd (s : State) : Host.Outcome State Fault Refusal :=
  .next (s.query Opcode.tailToEnd.code 0 s.tailToEnd)

/-- `NEXT_HEAD offset` (R86): total over its operand. -/
def execNextHead (offset : Nat) (s : State) : Host.Outcome State Fault Refusal :=
  .next (s.query Opcode.nextHead.code offset (s.wrap s.head offset))

/-- `NEXT_TAIL offset` (R87): total over its operand. -/
def execNextTail (offset : Nat) (s : State) : Host.Outcome State Fault Refusal :=
  .next (s.query Opcode.nextTail.code offset (s.wrap s.tail offset))

end Sys2Proof.Machine
end

