-- ==== Sys2Proof/Machine/Dispatch.lean ====
section
/-! DEFINITION. One arm per constructor of `Instr`: each command's meaning (30_encoding.md R55). -/

namespace Sys2Proof.Machine

def exec (i : Instr) (s : State) : Host.Outcome State Fault Refusal :=
  match i with
  | .construct n => Sys2Proof.Machine.execConstruct n s
  | .destroy => Sys2Proof.Machine.execDestroy s
  | .status => Sys2Proof.Machine.execStatus s
  | .isEmpty => Sys2Proof.Machine.execIsEmpty s
  | .filled => Sys2Proof.Machine.execFilled s
  | .free => Sys2Proof.Machine.execFree s
  | .capacity => Sys2Proof.Machine.execCapacity s
  | .headToEnd => Sys2Proof.Machine.execHeadToEnd s
  | .tailToEnd => Sys2Proof.Machine.execTailToEnd s
  | .nextHead offset => Sys2Proof.Machine.execNextHead offset s
  | .nextTail offset => Sys2Proof.Machine.execNextTail offset s
  | .advHead n => Sys2Proof.Machine.execAdvHead n s
  | .advTail n => Sys2Proof.Machine.execAdvTail n s
  | .copy dst src size => Sys2Proof.Machine.execCopy dst src size s

end Sys2Proof.Machine
end

