-- ==== Sys2Proof/Machine/Inputs.lean ====
section
/-! DEFINITION. What the machine does with each event from outside: a command word, reset, reset in mid-command,
the host's own accesses to `MEM`, and a `COPY` that the host's accesses race with. -/

namespace Sys2Proof.Machine

/-- A command word is decoded by 30_encoding.md R54 and executed; an illegal one executes nothing and raises
`E_ILLEGAL` with its own `op` and `a` (R56, R57, 60_exceptions.md R133). -/
def takeCommand (w : Nat) (s : State) : Host.Outcome State Fault Refusal :=
  match decode s.cfg.xlen w with
  | .ok i => exec i s
  | .error _ =>
    .next (s.raise (Command.ofWord s.cfg.xlen w).op .eIllegal (Command.ofWord s.cfg.xlen w).a)

/-- `MEM` after the command `w` was abandoned by a reset: changed only if it was a `COPY` past its checks, and then
only in its destination region (70_reset_and_hazards.md R151). -/
def abandonedMem (w : Nat) (landed : List Nat) (s : State) : Memory :=
  match decode s.cfg.xlen w with
  | .ok (.copy dst src size) =>
    if copyMoves s.cfg dst src size then copyLanded dst src size s.mem landed else s.mem
  | _ => s.mem

/-- The beats that the abandoned command `w` issued: the first `issued` of those of a `COPY` past its checks, in the
order of 43_tiered_copy.md R118; no other command issues any (20_memory.md R36). -/
def abandonedBeats (w issued : Nat) (s : State) : List Beat :=
  match decode s.cfg.xlen w with
  | .ok (.copy dst src size) =>
    if copyMoves s.cfg dst src size then (copyMove s.cfg.vlen dst src size s.mem).2.take issued else []
  | _ => []

/-- Reset between commands (R150). -/
def takeReset (s : State) : Host.Outcome State Fault Refusal := .next s.resetRegisters

/-- Reset while a command executes: no response is given, and the registers take their reset values (R151). -/
def takeResetDuring (w : Nat) (landed : List Nat) (issued : Nat) (s : State) : Host.Outcome State Fault Refusal :=
  .next (((s.setMem (abandonedMem w landed s)).recordBeats (abandonedBeats w issued s)).resetRegisters)

/-- The host writes a byte of `MEM`; no register changes (20_memory.md R44). -/
def takeHostWrite (a : Nat) (v : Byte) (s : State) : Host.Outcome State Fault Refusal :=
  if a < s.cfg.memBytes then .next (s.setMem (s.mem.write a v)) else .fault (.hostAccessOutsideMem a)

/-- The host reads a byte of `MEM`; nothing changes but the record of what it read (R43, R44). -/
def takeHostRead (a : Nat) (s : State) : Host.Outcome State Fault Refusal :=
  if a < s.cfg.memBytes then .next (s.recordHostRead a (s.mem.read a)) else .fault (.hostAccessOutsideMem a)

/-- The address lies in the source or the destination region of a `COPY`. -/
def inCopyRegions (dst src size a : Nat) : Bool :=
  (decide (dst ≤ a) && decide (a < dst + size)) || (decide (src ≤ a) && decide (a < src + size))

/-- `MEM` with the listed bytes of the two regions, and only those, at the listed values; the first of two entries
for one byte holds. -/
def racedMem (dst src size : Nat) (m : Memory) : List Host.Cell → Memory
  | [] => m
  | p :: ps =>
    if inCopyRegions dst src size p.1 then (racedMem dst src size m ps).write p.1 p.2
    else racedMem dst src size m ps

/-- The state after a `COPY` whose regions the host touches while it executes: the registers are unaffected, it
answers `OK`, and what the touched bytes hold and the host's own reads return is not specified: the event says it
(70_reset_and_hazards.md R154). The copy reads the bytes as the host's accesses left them (`seen`), and issues every
beat of its schedule with those bytes (43_tiered_copy.md R118); then the bytes in `ends` hold what is listed. -/
def State.raced (s : State) (dst src size : Nat) (seen ends reads : List Host.Cell) : State :=
  let r := copyMove s.cfg.vlen dst src size (racedMem dst src size s.mem seen)
  (((s.setMem (racedMem dst src size r.1 ends)).recordBeats r.2).recordHostReads
    (reads.filter (fun p => inCopyRegions dst src size p.1))).respond Opcode.copy.code dst

/-- A raced `COPY`; where the word is no `COPY` past its checks there is nothing to race with (log 11). -/
def takeRacedCopy (w : Nat) (seen ends reads : List Host.Cell) (s : State) : Host.Outcome State Fault Refusal :=
  match decode s.cfg.xlen w with
  | .ok (.copy dst src size) =>
    if copyMoves s.cfg dst src size then
      .next (s.raced dst src size seen ends reads)
    else .refused .noCopyInFlight
  | _ => .refused .noCopyInFlight

/-- One event taken. -/
def takeInput (i : Input) (s : State) : Host.Outcome State Fault Refusal :=
  match i with
  | .command w => takeCommand w s
  | .reset => takeReset s
  | .resetDuring w landed issued => takeResetDuring w landed issued s
  | .hostWrite a v => takeHostWrite a v s
  | .hostRead a => takeHostRead a s
  | .racedCopy w seen ends reads => takeRacedCopy w seen ends reads s

/-- One step: the next event is taken, each as one indivisible step (20_memory.md R42). With no event pending the
block is idle and keeps everything (60_exceptions.md R136, R142). -/
def stepInputs (s : State) : Host.Outcome State Fault Refusal :=
  match s.inputs with
  | [] => .next s
  | i :: rest => takeInput i (s.setInputs rest)

/-- The command word whose low `nbits` bits are `w`'s and whose other bits are zero, presented before every other
pending event. -/
def presentWord (s : State) (nbits w : Nat) : State := s.setInputs (.command (w % 2 ^ nbits) :: s.inputs)

end Sys2Proof.Machine
end

