-- ==== Sys2Proof/Machine/Step.lean ====
section
/-! DEFINITION. The step of the machine, and how the host has a command run next. -/

namespace Sys2Proof.Machine

/-- One step. A configuration that breaks 00_scope.md R5 is refused (93_implementation_defined.md U28). -/
def step (s : State) : Host.Outcome State Fault Refusal :=
  if s.cfg.valid then stepInputs s else .refused .illegalConfiguration

/-- The state in which the command word `w` is the next event: there is no program counter and no fetch, the host
presents commands one at a time (10_state.md R20; log 3). -/
def State.withFetchWord (s : State) (nbits w : Nat) : State := presentWord s nbits w

end Sys2Proof.Machine
end

