-- ==== Sys2Proof/Machine/Datapath.lean ====
section
/-! DEFINITION. The copy datapath as the state machine of 43_tiered_copy.md R124, with the transient state of
10_state.md R26. It exists only inside one `COPY`, so none of it is in `State`; that it does what `copyMove` says is
a statement. -/

namespace Sys2Proof.Machine

/-- The states of the machine (R124). -/
inductive CopyTier where
  | T64
  | T32
  | T16
  | S8
  | S4
  | S1
  | DONE
deriving DecidableEq, Repr

/-- The chunk width a state moves; `DONE` moves nothing. -/
def tierWidth (t : CopyTier) : Option Nat :=
  match t with
  | .T64 => some 64
  | .T32 => some 32
  | .T16 => some 16
  | .S8 => some 8
  | .S4 => some 4
  | .S1 => some 1
  | .DONE => none

/-- The state of the next narrower width (R124). -/
def tierNext (t : CopyTier) : CopyTier :=
  match t with
  | .T64 => .T32
  | .T32 => .T16
  | .T16 => .S8
  | .S8 => .S4
  | .S4 => .S1
  | .S1 => .DONE
  | .DONE => .DONE

/-- The entry state, the one for the widest width present (R115). -/
def tierEntry (v : VLen) : CopyTier :=
  match v with
  | .v512 => .T64
  | .v256 => .T32
  | .v128 => .T16
  | .v64 => .S8

/-- The transient state of one `COPY` (10_state.md R26) with the memory and the beats it acts on. -/
structure Datapath where
  /-- The current tier. -/
  tier : CopyTier
  /-- `off`, the running byte offset. -/
  off : Nat
  /-- `rem`, the remaining count. -/
  rem : Nat
  /-- `V`, the staging register, as a number; its lanes are those of 20_memory.md R34. -/
  staging : Nat
  mem : Memory
  beats : List Beat
deriving DecidableEq, Repr

/-- One transition: in a state of width `w`, if `rem ≥ w` move one chunk and stay, else go to the next narrower
width (R124). A chunk goes through the staging register: the read beat fills lane `k` with byte `k`, the write beat
stores lane `k` as byte `k` (20_memory.md R34). -/
def datapathTick (dst src : Nat) (d : Datapath) : Datapath :=
  match tierWidth d.tier with
  | none => d
  | some w =>
    if w ≤ d.rem then
      let V := stagingWord (d.mem.readBytes (src + d.off) w)
      { tier := d.tier
        off := d.off + w
        rem := d.rem - w
        staging := V
        mem := d.mem.writeBytes (dst + d.off) (stagingLanes V w)
        beats := d.beats ++ chunkBeats (src + d.off) (dst + d.off) (stagingLanes V w) }
    else { d with tier := tierNext d.tier }

/-- `n` transitions. -/
def datapathRun (dst src : Nat) : Nat → Datapath → Datapath
  | 0, d => d
  | n + 1, d => datapathRun dst src n (datapathTick dst src d)

/-- The datapath as a `COPY` of `size` bytes starts it. What `V` held before has no effect (10_state.md R26). -/
def datapathStart (v : VLen) (size V : Nat) (m : Memory) : Datapath :=
  { tier := tierEntry v, off := 0, rem := size, staging := V, mem := m, beats := [] }

end Sys2Proof.Machine
end

