-- ==== Sys2Proof/Safety.lean ====
section
/-! DEFINITION. What the statements speak of: the invariants of the state, the contents of the ring, the order of
faults, the closed form of the chunk schedule, the discipline and the sequences of the host. -/

namespace Sys2Proof.Machine

/-! ### Invariants -/

/-- The range rules of `CAP`, `HEAD` and `TAIL` (10_state.md R12, R13, R14). -/
abbrev State.ringOk (s : State) : Prop :=
  (s.valid = true → 1 ≤ s.cap ∧ s.cap ≤ s.cfg.storageBytes ∧ s.head < s.cap ∧ s.tail < s.cap) ∧
  (s.valid = false → s.cap = 0 ∧ s.head = 0 ∧ s.tail = 0)

/-- `ERR` holds 0x00 or a fault code (R22, 60_exceptions.md R130). -/
abbrev State.errOk (s : State) : Prop := s.err.toNat ≤ 9

/-- `MEM` is in canonical form and lists only addresses of `MEM`. -/
abbrev State.memOk (s : State) : Prop := s.mem.wf ∧ s.mem.inside s.cfg.memBytes

/-- A response's status is `OK` or a fault code (R130) and its value has `XLEN` bits (30_encoding.md R52). -/
abbrev responseLegal (x : XLen) (r : Response) : Prop := r.status.toNat ≤ 9 ∧ r.value < 2 ^ x.bits

/-- A beat has a width the block has and lies inside `MEM` (20_memory.md R33, R36). -/
abbrev beatLegal (c : Config) (b : Beat) : Prop :=
  b.data.length ∈ widthsPresent c.vlen ∧ b.addr + b.data.length ≤ c.memBytes

/-- The records of the ports hold legal transactions. -/
abbrev State.portsOk (s : State) : Prop :=
  (∀ r ∈ s.responses, responseLegal s.cfg.xlen r) ∧
  (∀ b ∈ s.beats, beatLegal s.cfg b) ∧
  ∀ p ∈ s.hostReads, p.1 < s.cfg.memBytes

/-- The invariant that every step keeps. -/
abbrev State.Inv (s : State) : Prop :=
  s.cfg.valid ∧ s.ringOk ∧ s.errOk ∧ s.memOk ∧ s.portsOk

/-! ### The two forms of a command's end -/

/-- `s` after the response `(op, 0x00, v)`, and nothing else (00_scope.md R9, `respond`). -/
def State.answered (s : State) (op : Byte) (v : Nat) : State :=
  { s with responses := s.responses ++ [{ op := op, status := 0x00, value := v }] }

/-- `s` after the fault response `(op, k, a)`, and nothing else but `ERR` (R9, `raise`; 60_exceptions.md R133 to
R135). -/
def State.faulted (s : State) (op k : Byte) (a : Nat) : State :=
  { s with
    err := if s.err = 0x00 then k else s.err
    responses := s.responses ++ [{ op := op, status := k, value := a }] }

/-! ### Which words are a command -/

/-- Of the words of a port's width, exactly the opcode byte alone is the command `i` (30_encoding.md R50, R51,
format `Z`). -/
def encodedZ (op : Nat) (i : Instr) : Prop :=
  ∀ (x : XLen) (w : Nat), w < 2 ^ commandBits x → (decode x w = .ok i ↔ w = op)

/-- Exactly the word with the opcode `op`, the operand in `a`, and `b` and `c` zero is the command (format `A`). -/
def encodedA (op : Nat) (i : Nat → Instr) : Prop :=
  ∀ (x : XLen) (w n : Nat), w < 2 ^ commandBits x → n < 2 ^ x.bits →
    (decode x w = .ok (i n) ↔ w = op + n * 2 ^ 8)

/-- Exactly the word with the opcode `op` and the three operands in `a`, `b`, `c` is the command (format `ABC`). -/
def encodedABC (op : Nat) (i : Nat → Nat → Nat → Instr) : Prop :=
  ∀ (x : XLen) (w a b c : Nat), w < 2 ^ commandBits x → a < 2 ^ x.bits → b < 2 ^ x.bits → c < 2 ^ x.bits →
    (decode x w = .ok (i a b c) ↔ w = op + a * 2 ^ 8 + b * 2 ^ (x.bits + 8) + c * 2 ^ (2 * x.bits + 8))

/-! ### The contents of the ring -/

/-- The positions of the filled region, in reading order (10_state.md R24). -/
def State.filledPositions (s : State) : List Nat := (List.range s.filled).map (fun i => s.wrap s.tail i)

/-- The positions of the free region, in writing order (R24). -/
def State.freePositions (s : State) : List Nat := (List.range s.free).map (fun i => s.wrap s.head i)

/-- The byte at a ring position (20_memory.md R32). -/
def State.ringByte (s : State) (p : Nat) : Byte := s.mem.read (positionAddress s.cfg p)

/-- The bytes the ring holds, oldest first. -/
def State.contents (s : State) : List Byte := s.filledPositions.map s.ringByte

/-! ### Which fault a command raises -/

/-- The ring commands: those that need `VALID = 1` (60_exceptions.md R130, `E_NOT_CONSTRUCTED`). -/
def opcodeNeedsRing : Opcode → Bool
  | .construct => false
  | .destroy => true
  | .status => false
  | .isEmpty => true
  | .filled => true
  | .free => true
  | .capacity => true
  | .headToEnd => true
  | .tailToEnd => true
  | .nextHead => true
  | .nextTail => true
  | .advHead => true
  | .advTail => true
  | .copy => false

/-- The causes of a fault in the order of 60_exceptions.md R132, each with the condition under which it applies to
the command record `k` in the state `s`. -/
def faultCauses (s : State) (k : Command) : List (Prop × FaultCode) :=
  [(∀ o, Opcode.code o ≠ k.op, .eIllegal),
   ((∃ o, Opcode.code o = k.op ∧ o.format = .Z) ∧ (k.a ≠ 0 ∨ k.b ≠ 0 ∨ k.c ≠ 0), .eIllegal),
   ((∃ o, Opcode.code o = k.op ∧ o.format = .A) ∧ (k.b ≠ 0 ∨ k.c ≠ 0), .eIllegal),
   (k.op = 0x01 ∧ s.valid = true, .eAlreadyConstructed),
   ((∃ o, Opcode.code o = k.op ∧ opcodeNeedsRing o = true) ∧ s.valid = false, .eNotConstructed),
   (k.op = 0x01 ∧ k.a = 0, .eConfig),
   (k.op = 0x01 ∧ s.cfg.storageBytes < k.a, .eResource),
   (k.op = 0x20 ∧ s.free ≤ k.a, .eOverrun),
   (k.op = 0x21 ∧ s.filled < k.a, .eUnderrun),
   (k.op = 0x30 ∧ 1 ≤ k.c ∧ (s.cfg.memBytes < k.b + k.c ∨ s.cfg.memBytes < k.a + k.c), .eBounds),
   (k.op = 0x30 ∧ 1 ≤ k.c ∧ k.a < k.b + k.c ∧ k.b < k.a + k.c, .eAlias)]

/-- The status the causes give: the code of the first that applies, and `OK` if none does (R130, R132). -/
def firstCause : List (Prop × FaultCode) → Byte → Prop
  | [], st => st = statusOk
  | (p, f) :: rest, st => (p ∧ st = faultCode f) ∨ (¬ p ∧ firstCause rest st)

/-! ### The chunk schedule in closed form -/

/-- Bit `k` of `r`, as 0 or 1. -/
def bitOf (r k : Nat) : Nat := r / 2 ^ k % 2

/-- `chunks(size, VLEN)` (43_tiered_copy.md R117). -/
def chunkCount (v : VLen) (size : Nat) : Nat :=
  let W := v.bits / 8
  let r := size % W
  size / W + bitOf r 5 + bitOf r 4 + bitOf r 3 + bitOf r 2 + r % 4

/-- The schedule as R117 lists it: `q` chunks of `W` bytes, then one chunk of each narrower width whose bit is set,
then `r mod 4` chunks of 1 byte. -/
def closedSchedule (v : VLen) (size : Nat) : List Nat :=
  let W := v.bits / 8
  let r := size % W
  List.replicate (size / W) W ++ List.replicate (bitOf r 5) 32 ++ List.replicate (bitOf r 4) 16 ++
    List.replicate (bitOf r 3) 8 ++ List.replicate (bitOf r 2) 4 ++ List.replicate (r % 4) 1

/-- The beats of a chunk list as R118 lays them out: for each chunk its read beat, and then its write beat of the
same bytes, the data taken from the memory before the command. -/
def plannedBeats (m : Memory) (dst src : Nat) : Nat → List Nat → List Beat
  | _, [] => []
  | off, w :: ws =>
    { kind := .read, addr := src + off, data := m.readBytes (src + off) w } ::
      { kind := .write, addr := dst + off, data := m.readBytes (src + off) w } :: plannedBeats m dst src (off + w) ws

/-- The addresses a beat touches, in lane order. -/
def beatAddresses (b : Beat) : List Nat := List.range' b.addr b.data.length

/-- The addresses the beats of one kind touch, in order. -/
def addressesOf (k : BeatKind) (bs : List Beat) : List Nat :=
  (bs.filter (fun b => b.kind == k)).flatMap beatAddresses

/-! ### The host -/

/-- The discipline of a `COPY` into the ring, `k` bytes after `HEAD` having been placed since the last `ADV_HEAD`
(70_reset_and_hazards.md R155). -/
abbrev State.copyIntoRing (s : State) (k dst size : Nat) : Prop :=
  dst = positionAddress s.cfg (s.wrap s.head k) ∧
  size ≤ s.cap - s.wrap s.head k ∧ k + size + 1 ≤ s.free

/-- Commands executed one after the other, each by its meaning. -/
def execAll : List Instr → State → Host.Outcome State Fault Refusal
  | [], s => .next s
  | i :: is, s =>
    match exec i s with
    | .next t => execAll is t
    | .fault r => .fault r
    | .refused r => .refused r

/-- The host's sequence `WRITE buf, n` (43_tiered_copy.md R123), from the answers `h` and `e` to its queries. -/
def State.writeSequence (s : State) (buf n : Nat) : List Instr :=
  let h := s.wrap s.head 0
  let n1 := min n s.headToEnd
  let n2 := n - n1
  [.free, .nextHead 0, .headToEnd, .copy (positionAddress s.cfg h) buf n1] ++
    (if 0 < n2 then [.copy (positionAddress s.cfg 0) (buf + n1) n2] else []) ++ [.advHead n]

/-- The host's sequence `READ buf, n` (R123). -/
def State.readSequence (s : State) (buf n : Nat) : List Instr :=
  let t := s.wrap s.tail 0
  let n1 := min n s.tailToEnd
  let n2 := n - n1
  [.filled, .nextTail 0, .tailToEnd, .copy buf (positionAddress s.cfg t) n1] ++
    (if 0 < n2 then [.copy (buf + n1) (positionAddress s.cfg 0) n2] else []) ++ [.advTail n]

/-- The host's buffer of `n` bytes at `buf` lies inside `MEM` and outside the storage (R123). -/
abbrev State.bufferOk (s : State) (buf n : Nat) : Prop :=
  buf + n ≤ s.cfg.memBytes ∧
  (buf + n ≤ s.cfg.storageBase ∨ s.cfg.storageBase + s.cap ≤ buf)

end Sys2Proof.Machine
end

