-- ==== Sys2Proof/Certificates/Slice0/Obligations.lean ====
section
/-! DEFINITION. The statements for the provers, from the numbered rules of the spec, family by family. -/

open Sys2Proof Sys2Proof.Machine

/-! ### Encoding (30_encoding.md) -/

/-- The command word of a well-formed command is a word of the port's width (R50) and decodes to that command, with
every operand at every value the encoding admits (R51, R53, R55). -/
def Obligations.DecodeOfEncodeIsTheCommand : Prop :=
  ∀ (x : XLen) (i : Instr), i.wf x = true →
    encode x i < 2 ^ commandBits x ∧ decode x (encode x i) = .ok i

/-- A legal command word is the encoding of the well-formed command it decodes to: no bit of it is dropped, and two
different legal words are two different commands (R54). -/
def Obligations.EncodeOfDecodeIsTheWord : Prop :=
  ∀ (x : XLen) (w : Nat) (i : Instr), w < 2 ^ commandBits x → decode x w = .ok i →
    encode x i = w ∧ i.wf x = true

/-- R54. First the opcode is looked up among the fourteen; then every field that the format says must be zero is
compared with zero; a word that passes both is a command; an illegal word executes nothing and raises `E_ILLEGAL`;
and two legal words that decode alike are equal. -/
def Obligations.DecodingTakesTwoSteps : Prop :=
  (∀ (x : XLen) (w : Nat),
    let op := w % 256
    let a := w / 2 ^ 8 % 2 ^ x.bits
    let b := w / 2 ^ (x.bits + 8) % 2 ^ x.bits
    let c := w / 2 ^ (2 * x.bits + 8) % 2 ^ x.bits
    let fourteen : List Nat :=
      [0x01, 0x02, 0x03, 0x10, 0x11, 0x12, 0x13, 0x14, 0x15, 0x16, 0x17, 0x20, 0x21, 0x30]
    let nonzero : Prop :=
      (op ∈ [0x02, 0x03, 0x10, 0x11, 0x12, 0x13, 0x14, 0x15] ∧ (a ≠ 0 ∨ b ≠ 0 ∨ c ≠ 0)) ∨
      (op ∈ [0x01, 0x16, 0x17, 0x20, 0x21] ∧ (b ≠ 0 ∨ c ≠ 0))
    (op ∉ fourteen → decode x w = .error (.reservedOpcode (BitVec.ofNat 8 op))) ∧
    (op ∈ fourteen → nonzero → decode x w = .error (.nonzeroField (BitVec.ofNat 8 op))) ∧
    (op ∈ fourteen → ¬ nonzero → ∃ i, decode x w = .ok i)) ∧
  (∀ (s : State) (w : Nat) (rest : List Input) (e : DecodeError),
    s.cfg.valid → s.inputs = .command w :: rest → decode s.cfg.xlen w = .error e →
    step s = .next ((s.setInputs rest).faulted (BitVec.ofNat 8 (w % 256)) 0x01 (w / 2 ^ 8 % 2 ^ s.cfg.xlen.bits))) ∧
  (∀ (x : XLen) (w w' : Nat) (i : Instr), w < 2 ^ commandBits x → w' < 2 ^ commandBits x →
    decode x w = .ok i → decode x w' = .ok i → w = w')

/-- The command words that 30_encoding.md section 6 and 95_test_vectors.md section 2.1 write out decode to the
commands they are written for. -/
def Obligations.WordsOfTheSpecDecode : Prop :=
  decode .x32 0x00000000_00000000_00000010_01 = .ok (.construct 16) ∧
  decode .x32 0x00000000_00000000_00000000_10 = .ok .isEmpty ∧
  decode .x32 0x00000000_00000000_00000008_16 = .ok (.nextHead 8) ∧
  decode .x32 0x00000000_00000000_00000008_20 = .ok (.advHead 8) ∧
  decode .x32 0x00000004_00000100_0000800C_30 = .ok (.copy 0x800C 0x0100 4) ∧
  decode .x32 0x00000000_00000000_00000000_13 = .ok .capacity ∧
  decode .x32 0x0000003F_00000100_00000400_30 = .ok (.copy 0x0400 0x0100 63) ∧
  decode .x16 0x0000_0000_0010_01 = .ok (.construct 16) ∧
  decode .x64 0x0000000000000000_0000000000000000_0000000000000010_01 = .ok (.construct 16) ∧
  decode .x32 0x00000001_00000000_00000008_20 = .error (.nonzeroField 0x20) ∧
  decode .x32 0x00000000_00000000_00000000_00 = .error (.reservedOpcode 0x00)

/-- R56. Exactly 242 opcode values are reserved, those of the ranges listed; a command with one raises `E_ILLEGAL`
and does nothing else, whatever its operand fields. -/
def Obligations.ReservedOpcodesAreIllegal : Prop :=
  ((List.range 256).filter (fun n => (Opcode.ofCode (BitVec.ofNat 8 n)).isNone)).length = 242 ∧
  ∀ (s : State) (w : Nat) (rest : List Input), s.cfg.valid → s.inputs = .command w :: rest →
    (w % 256 = 0x00 ∨ (0x04 ≤ w % 256 ∧ w % 256 ≤ 0x0F) ∨ (0x18 ≤ w % 256 ∧ w % 256 ≤ 0x1F) ∨
      (0x22 ≤ w % 256 ∧ w % 256 ≤ 0x2F) ∨ 0x31 ≤ w % 256) →
    step s = .next ((s.setInputs rest).faulted (BitVec.ofNat 8 (w % 256)) 0x01 (w / 2 ^ 8 % 2 ^ s.cfg.xlen.bits))

/-- R57. A command whose format leaves a field unused and whose word has that field non-zero raises `E_ILLEGAL` and
does nothing else. -/
def Obligations.NonzeroUnusedFieldsAreIllegal : Prop :=
  ∀ (s : State) (w : Nat) (rest : List Input), s.cfg.valid → s.inputs = .command w :: rest →
    let a := w / 2 ^ 8 % 2 ^ s.cfg.xlen.bits
    let b := w / 2 ^ (s.cfg.xlen.bits + 8) % 2 ^ s.cfg.xlen.bits
    let c := w / 2 ^ (2 * s.cfg.xlen.bits + 8) % 2 ^ s.cfg.xlen.bits
    ((w % 256 ∈ [0x02, 0x03, 0x10, 0x11, 0x12, 0x13, 0x14, 0x15] ∧ (a ≠ 0 ∨ b ≠ 0 ∨ c ≠ 0)) ∨
      (w % 256 ∈ [0x01, 0x16, 0x17, 0x20, 0x21] ∧ (b ≠ 0 ∨ c ≠ 0))) →
    step s = .next ((s.setInputs rest).faulted (BitVec.ofNat 8 (w % 256)) 0x01 a)

/-- The response record and the response word of `16 + XLEN` bits say the same (R52). -/
def Obligations.ResponseWordsRoundTrip : Prop :=
  (∀ (x : XLen) (r : Response), r.value < 2 ^ x.bits →
    r.toWord < 2 ^ responseBits x ∧ Response.ofWord x r.toWord = r) ∧
  (∀ (x : XLen) (w : Nat), w < 2 ^ responseBits x → (Response.ofWord x w).toWord = w)

/-! ### The step -/

/-- A step takes the next event: a command word that decodes is executed by its meaning with that event removed; a
word presented by `withFetchWord` is that next event; with no event the block keeps everything (60_exceptions.md
R136); build parameters that break 00_scope.md R5 are refused. That events wait in a queue, and that `withFetchWord`
puts its word in front of them, is the model's choice (log 3); that a step is refused while the parameters break R5
is the model's form of 93_implementation_defined.md U28 (log 9). -/
def Obligations.StepRunsTheDecodedCommand : Prop :=
  (∀ (s : State) (w : Nat) (rest : List Input) (i : Instr), s.cfg.valid → s.inputs = .command w :: rest →
    decode s.cfg.xlen w = .ok i → step s = exec i { s with inputs := rest }) ∧
  (∀ (s : State) (nbits w : Nat) (i : Instr), s.cfg.valid → decode s.cfg.xlen (w % 2 ^ nbits) = .ok i →
    step (s.withFetchWord nbits w) = exec i s) ∧
  (∀ s : State, s.cfg.valid → s.inputs = [] → step s = .next s) ∧
  (∀ s : State, ¬ s.cfg.valid → step s = .refused .illegalConfiguration)

/-! ### Lifecycle (40_lifecycle.md) -/

/-- R70. `CONSTRUCT`: the three faults in their order, and otherwise the empty ring of that capacity, no byte of
`MEM` written and `ERR` kept; after it `IS_EMPTY`, `FILLED` and `FREE` answer 1, 0 and the capacity. -/
def Obligations.ConstructFollowsItsRule : Prop :=
  encodedA 0x01 .construct ∧ ∀ (s : State) (n : Nat),
    (s.valid = true → exec (.construct n) s = .next (s.faulted 0x01 0x05 n)) ∧
    (s.valid = false → n = 0 → exec (.construct n) s = .next (s.faulted 0x01 0x02 n)) ∧
    (s.valid = false → s.cfg.storageBytes < n → exec (.construct n) s = .next (s.faulted 0x01 0x03 n)) ∧
    (s.valid = false → 1 ≤ n → n ≤ s.cfg.storageBytes →
      let t := { s with valid := true, cap := n, head := 0, tail := 0 }.answered 0x01 n
      exec (.construct n) s = .next t ∧ exec .isEmpty t = .next (t.answered 0x10 1) ∧
        exec .filled t = .next (t.answered 0x11 0) ∧ exec .free t = .next (t.answered 0x12 n))

/-- R71. `DESTROY`: all four ring registers cleared in one step, no byte of `MEM` written, `ERR` kept; a new
`CONSTRUCT` with any legal capacity is then accepted; with no ring it faults. -/
def Obligations.DestroyFollowsItsRule : Prop :=
  encodedZ 0x02 .destroy ∧ ∀ s : State,
    (s.valid = false → exec .destroy s = .next (s.faulted 0x02 0x04 0)) ∧
    (s.valid = true →
      let t := { s with valid := false, cap := 0, head := 0, tail := 0 }.answered 0x02 0
      exec .destroy s = .next t ∧
        ∀ n, 1 ≤ n → n ≤ s.cfg.storageBytes →
          exec (.construct n) t = .next ({ t with valid := true, cap := n, head := 0, tail := 0 }.answered 0x01 n))

/-- R72. `STATUS` never faults, changes no register, and answers a 16-bit value with `VALID` in bit 0, zeros in bits
7 to 1 and `ERR` in bits 15 to 8. -/
def Obligations.StatusFollowsItsRule : Prop :=
  encodedZ 0x03 .status ∧ ∀ s : State, ∃ v : Nat,
    exec .status s = .next (s.answered 0x03 v) ∧ v < 2 ^ 16 ∧
    v % 2 = (if s.valid then 1 else 0) ∧ v / 2 % 2 ^ 7 = 0 ∧ v / 2 ^ 8 % 2 ^ 8 = s.err.toNat

/-! ### Queries (41_ring_queries.md) -/

/-- R80. `IS_EMPTY` answers 1 iff `HEAD = TAIL`, which is exactly when `FILLED` answers 0, and always for `CAP = 1`. -/
def Obligations.IsEmptyFollowsItsRule : Prop :=
  encodedZ 0x10 .isEmpty ∧ ∀ s : State,
    (s.valid = false → exec .isEmpty s = .next (s.faulted 0x10 0x04 0)) ∧
    (s.valid = true → exec .isEmpty s = .next (s.answered 0x10 (if s.head = s.tail then 1 else 0))) ∧
    (s.ringOk → s.valid = true → (s.head = s.tail ↔ s.filled = 0) ∧ (s.cap = 1 → s.head = s.tail))

/-- R81. `FILLED` answers the two-branch formula, a value in `0 .. CAP - 1`. -/
def Obligations.FilledFollowsItsRule : Prop :=
  encodedZ 0x11 .filled ∧ ∀ s : State,
    (s.valid = false → exec .filled s = .next (s.faulted 0x11 0x04 0)) ∧
    (s.valid = true → s.tail ≤ s.head → exec .filled s = .next (s.answered 0x11 (s.head - s.tail))) ∧
    (s.valid = true → s.head < s.tail → exec .filled s = .next (s.answered 0x11 (s.cap - (s.tail - s.head)))) ∧
    (s.ringOk → s.valid = true → s.filled ≤ s.cap - 1)

/-- R82. `FREE` answers `CAP - filled`, a value in `1 .. CAP`, never 0. -/
def Obligations.FreeFollowsItsRule : Prop :=
  encodedZ 0x12 .free ∧ ∀ s : State,
    (s.valid = false → exec .free s = .next (s.faulted 0x12 0x04 0)) ∧
    (s.valid = true → exec .free s = .next (s.answered 0x12 (s.cap - s.filled))) ∧
    (s.ringOk → s.valid = true → 1 ≤ s.cap - s.filled ∧ s.cap - s.filled ≤ s.cap ∧
      s.filled + (s.cap - s.filled) = s.cap)

/-- R83. `CAPACITY` answers `CAP`, a value in `1 .. STORAGE_BYTES`. -/
def Obligations.CapacityFollowsItsRule : Prop :=
  encodedZ 0x13 .capacity ∧ ∀ s : State,
    (s.valid = false → exec .capacity s = .next (s.faulted 0x13 0x04 0)) ∧
    (s.valid = true → exec .capacity s = .next (s.answered 0x13 s.cap)) ∧
    (s.ringOk → s.valid = true → 1 ≤ s.cap ∧ s.cap ≤ s.cfg.storageBytes)

/-- R84. `HEAD_TO_END` answers `CAP - HEAD`, a value in `1 .. CAP`. -/
def Obligations.HeadToEndFollowsItsRule : Prop :=
  encodedZ 0x14 .headToEnd ∧ ∀ s : State,
    (s.valid = false → exec .headToEnd s = .next (s.faulted 0x14 0x04 0)) ∧
    (s.valid = true → exec .headToEnd s = .next (s.answered 0x14 (s.cap - s.head))) ∧
    (s.ringOk → s.valid = true → 1 ≤ s.cap - s.head ∧ s.cap - s.head ≤ s.cap ∧ s.cap - s.head + s.head = s.cap)

/-- R85. `TAIL_TO_END` answers `CAP - TAIL`, a value in `1 .. CAP`. -/
def Obligations.TailToEndFollowsItsRule : Prop :=
  encodedZ 0x15 .tailToEnd ∧ ∀ s : State,
    (s.valid = false → exec .tailToEnd s = .next (s.faulted 0x15 0x04 0)) ∧
    (s.valid = true → exec .tailToEnd s = .next (s.answered 0x15 (s.cap - s.tail))) ∧
    (s.ringOk → s.valid = true → 1 ≤ s.cap - s.tail ∧ s.cap - s.tail ≤ s.cap ∧ s.cap - s.tail + s.tail = s.cap)

/-- R86. `NEXT_HEAD offset` answers `(HEAD + offset) mod CAP` over the integers for every offset, and moves nothing;
offset 0 and every multiple of `CAP` answer `HEAD`. -/
def Obligations.NextHeadFollowsItsRule : Prop :=
  encodedA 0x16 .nextHead ∧ ∀ (s : State) (k : Nat),
    (s.valid = false → exec (.nextHead k) s = .next (s.faulted 0x16 0x04 k)) ∧
    (s.valid = true → exec (.nextHead k) s = .next (s.answered 0x16 ((s.head + k) % s.cap))) ∧
    (s.ringOk → s.valid = true → (s.head + k) % s.cap < s.cap ∧ (s.head + k * s.cap) % s.cap = s.head)

/-- R87. `NEXT_TAIL offset`, symmetric. -/
def Obligations.NextTailFollowsItsRule : Prop :=
  encodedA 0x17 .nextTail ∧ ∀ (s : State) (k : Nat),
    (s.valid = false → exec (.nextTail k) s = .next (s.faulted 0x17 0x04 k)) ∧
    (s.valid = true → exec (.nextTail k) s = .next (s.answered 0x17 ((s.tail + k) % s.cap))) ∧
    (s.ringOk → s.valid = true → (s.tail + k) % s.cap < s.cap ∧ (s.tail + k * s.cap) % s.cap = s.tail)

/-- R19, R21. `wrap(p, k)` is the mathematical `(p + k) mod CAP` for every `k`: reducing `k` first gives the same
number from a sum of at most `2 * CAP - 2`, which one conditional subtraction reduces; the result is a position. -/
def Obligations.WrapIsTheMathematicalOne : Prop :=
  ∀ cap p k : Nat, p < cap →
    ringWrap cap p k = (p + k) % cap ∧ ringWrap cap p k = (p + k % cap) % cap ∧ p + k % cap ≤ 2 * cap - 2 ∧
    ringWrap cap p k = (if p + k % cap < cap then p + k % cap else p + k % cap - cap) ∧ ringWrap cap p k < cap

/-- R88. Each of the eight queries writes no register but `ERR`, and that only when it faults, reads and writes no
byte of `MEM`, and answers the same wherever `VALID`, `CAP`, `HEAD` and `TAIL` are the same; with `VALID = 1` it
cannot fault, with `VALID = 0` it raises `E_NOT_CONSTRUCTED`; in a state that meets the invariant its answer fits in
`XLEN` bits. -/
def Obligations.QueriesArePure : Prop :=
  ∀ (s : State) (i : Instr) (k : Nat),
    i ∈ [.isEmpty, .filled, .free, .capacity, .headToEnd, .tailToEnd, .nextHead k, .nextTail k] →
    ∃ (t : State) (r : Response), exec i s = .next t ∧
      t = { s with err := t.err, responses := s.responses ++ [r] } ∧
      (∀ a, t.mem.read a = s.mem.read a) ∧
      (s.valid = true → t.err = s.err ∧ r.status = 0x00) ∧
      (s.valid = false → r.status = 0x04) ∧
      (s.Inv → k < 2 ^ s.cfg.xlen.bits → r.value < 2 ^ s.cfg.xlen.bits) ∧
      ∀ s' : State, s'.valid = s.valid → s'.cap = s.cap → s'.head = s.head → s'.tail = s.tail →
        ∃ u : State, exec i s' = .next u ∧ u.responses = s'.responses ++ [r]

/-! ### Advances (42_ring_advance.md) -/

/-- R100. `ADV_HEAD n`: refused with `E_OVERRUN` for `n ≥ free`, and otherwise `HEAD` alone moves to
`(HEAD + n) mod CAP`, which is the answer; `n = 0` is always accepted and changes nothing, and `n ≥ CAP` never. -/
def Obligations.AdvHeadFollowsItsRule : Prop :=
  encodedA 0x20 .advHead ∧ ∀ (s : State) (n : Nat),
    (s.valid = false → exec (.advHead n) s = .next (s.faulted 0x20 0x04 n)) ∧
    (s.valid = true → s.free ≤ n → exec (.advHead n) s = .next (s.faulted 0x20 0x06 n)) ∧
    (s.valid = true → n < s.free →
      exec (.advHead n) s = .next ({ s with head := (s.head + n) % s.cap }.answered 0x20 ((s.head + n) % s.cap))) ∧
    (s.ringOk → s.valid = true → exec (.advHead 0) s = .next (s.answered 0x20 s.head)) ∧
    (s.ringOk → s.valid = true → s.cap ≤ n → exec (.advHead n) s = .next (s.faulted 0x20 0x06 n))

/-- R101. `ADV_TAIL n`: refused with `E_UNDERRUN` for `n > filled`, and otherwise `TAIL` alone moves to
`(TAIL + n) mod CAP`, which is the answer; `n = 0` is always accepted, `n = filled` brings `TAIL` to `HEAD`, and
`n ≥ CAP` is never accepted. -/
def Obligations.AdvTailFollowsItsRule : Prop :=
  encodedA 0x21 .advTail ∧ ∀ (s : State) (n : Nat),
    (s.valid = false → exec (.advTail n) s = .next (s.faulted 0x21 0x04 n)) ∧
    (s.valid = true → s.filled < n → exec (.advTail n) s = .next (s.faulted 0x21 0x07 n)) ∧
    (s.valid = true → n ≤ s.filled →
      exec (.advTail n) s = .next ({ s with tail := (s.tail + n) % s.cap }.answered 0x21 ((s.tail + n) % s.cap))) ∧
    (s.ringOk → s.valid = true → exec (.advTail 0) s = .next (s.answered 0x21 s.tail)) ∧
    (s.ringOk → s.valid = true →
      exec (.advTail s.filled) s = .next ({ s with tail := s.head }.answered 0x21 s.head)) ∧
    (s.ringOk → s.valid = true → s.cap ≤ n → exec (.advTail n) s = .next (s.faulted 0x21 0x07 n))

/-- The frame of the lifecycle commands and the advances: `CONSTRUCT` and `DESTROY` change at most `VALID`, `CAP`,
`HEAD`, `TAIL`; `ADV_HEAD` at most `HEAD`; `ADV_TAIL` at most `TAIL` (R103); `ERR` only with a fault; no byte of
`MEM` is written and no beat is issued. -/
def Obligations.RingCommandsFrame : Prop :=
  ∀ (s t : State) (i : Instr) (n : Nat), i ∈ [.construct n, .destroy, .advHead n, .advTail n] → exec i s = .next t →
    (∀ a, t.mem.read a = s.mem.read a) ∧ t.cfg = s.cfg ∧ t.inputs = s.inputs ∧ t.beats = s.beats ∧
    t.hostReads = s.hostReads ∧
    (∀ r, t.responses = s.responses ++ [r] → r.status = 0x00 → t.err = s.err) ∧
    (i = .advHead n → t.valid = s.valid ∧ t.cap = s.cap ∧ t.tail = s.tail) ∧
    (i = .advTail n → t.valid = s.valid ∧ t.cap = s.cap ∧ t.head = s.head)

/-- R102. An advance keeps the invariants INV1 to INV6 of 10_state.md R23 and `VALID` and `CAP` themselves, whether
it succeeds or faults; a successful `ADV_HEAD n` adds `n` to
`filled` and takes it from `free`, a successful `ADV_TAIL n` the other way round; and `HEAD = TAIL` afterwards exactly
when nothing is held. -/
def Obligations.AdvancesMoveFilled : Prop :=
  ∀ (s : State) (n : Nat), s.ringOk → s.valid = true →
    (∀ i, i = .advHead n ∨ i = .advTail n → ∃ t, exec i s = .next t ∧ t.valid = true ∧ t.cap = s.cap ∧
      1 ≤ t.cap ∧ t.cap ≤ t.cfg.storageBytes ∧ t.head < t.cap ∧ t.tail < t.cap ∧ t.filled + t.free = t.cap ∧
      t.filled ≤ t.cap - 1 ∧ 1 ≤ t.free ∧ t.free ≤ t.cap ∧ t.headToEnd + t.head = t.cap ∧ t.tailToEnd + t.tail = t.cap ∧
      (t.head = t.tail ↔ t.filled = 0)) ∧
    (n < s.free → ∃ t, exec (.advHead n) s = .next t ∧ t.filled = s.filled + n ∧ t.free + n = s.free ∧
      (t.head = t.tail ↔ s.filled + n = 0)) ∧
    (n ≤ s.filled → ∃ t, exec (.advTail n) s = .next t ∧ t.filled + n = s.filled ∧ t.free = s.free + n ∧
      (t.head = t.tail ↔ s.filled = n))

/-- The ring is a queue: `ADV_HEAD n` appends the `n` bytes that stand at the first `n` positions of the free region,
and `ADV_TAIL n` removes the `n` oldest bytes (10_state.md R24, R100, R101). -/
def Obligations.AdvancesQueueTheBytes : Prop :=
  ∀ (s : State) (n : Nat), s.ringOk → s.valid = true →
    (n < s.free → ∃ t, exec (.advHead n) s = .next t ∧
      t.contents = s.contents ++ (List.range n).map (fun i => s.ringByte (s.wrap s.head i))) ∧
    (n ≤ s.filled → ∃ t, exec (.advTail n) s = .next t ∧ t.contents = s.contents.drop n)

/-- R157. Staleness is benign between one producer and one consumer: an `n` that was within `free - 1` is still so
after the consumer's `ADV_TAIL`, and one that was within `filled` is still so after the producer's `ADV_HEAD`. -/
def Obligations.SnapshotsStayGood : Prop :=
  ∀ (s : State) (n m : Nat), s.ringOk → s.valid = true →
    (n < s.free → ∃ t, exec (.advTail m) s = .next t ∧ n < t.free ∧ t.valid = true) ∧
    (n ≤ s.filled → ∃ t, exec (.advHead m) s = .next t ∧ n ≤ t.filled ∧ t.valid = true)

/-! ### Copy (43_tiered_copy.md) -/

/-- R111. `COPY` of nothing makes no check, issues no beat, changes no byte and answers `dst`. -/
def Obligations.CopyOfNothingIsANoOp : Prop :=
  ∀ (s : State) (dst src : Nat), exec (.copy dst src 0) s = .next (s.answered 0x30 dst)

/-- R113, R114. For `size ≥ 1` a region that does not lie inside `MEM` raises `E_BOUNDS`, and regions inside `MEM`
that overlap raise `E_ALIAS`, before any beat and with nothing else changed; regions inside `MEM` that only touch, or
lie apart, are accepted. -/
def Obligations.CopyChecksItsRegions : Prop :=
  ∀ (s : State) (dst src size : Nat), 1 ≤ size →
    (s.cfg.memBytes < src + size ∨ s.cfg.memBytes < dst + size →
      exec (.copy dst src size) s = .next (s.faulted 0x30 0x08 dst)) ∧
    (src + size ≤ s.cfg.memBytes → dst + size ≤ s.cfg.memBytes → dst < src + size → src < dst + size →
      exec (.copy dst src size) s = .next (s.faulted 0x30 0x09 dst)) ∧
    (src + size ≤ s.cfg.memBytes → dst + size ≤ s.cfg.memBytes → (src + size ≤ dst ∨ dst + size ≤ src) →
      ∃ t : State, exec (.copy dst src size) s = .next t ∧ t.err = s.err ∧
        t.responses = s.responses ++ [{ op := 0x30, status := 0x00, value := dst }])

/-- R110. `COPY`: nothing to do for size 0; the two faults in their order, with `MEM` as it was; and otherwise the
beats of its schedule, every byte of the destination as the source byte was before, every other byte of `MEM` as
before, no register changed, and the answer `dst`. -/
def Obligations.CopyMovesTheBytes : Prop :=
  encodedABC 0x30 .copy ∧ ∀ (s : State) (dst src size : Nat),
    (size = 0 → exec (.copy dst src size) s = .next (s.answered 0x30 dst)) ∧
    (1 ≤ size → (s.cfg.memBytes < src + size ∨ s.cfg.memBytes < dst + size) →
      exec (.copy dst src size) s = .next (s.faulted 0x30 0x08 dst)) ∧
    (1 ≤ size → src + size ≤ s.cfg.memBytes → dst + size ≤ s.cfg.memBytes → dst < src + size → src < dst + size →
      exec (.copy dst src size) s = .next (s.faulted 0x30 0x09 dst)) ∧
    (1 ≤ size → src + size ≤ s.cfg.memBytes → dst + size ≤ s.cfg.memBytes →
      (src + size ≤ dst ∨ dst + size ≤ src) →
      ∃ t : State, exec (.copy dst src size) s = .next t ∧
        (∀ a, dst ≤ a → a < dst + size → t.mem.read a = s.mem.read (src + (a - dst))) ∧
        (∀ a, a < dst ∨ dst + size ≤ a → t.mem.read a = s.mem.read a) ∧
        t.beats = s.beats ++ plannedBeats s.mem dst src 0 (schedule (widthsPresent s.cfg.vlen) size) ∧
        t = { s with mem := t.mem, beats := t.beats }.answered 0x30 dst)

/-- R115, R116. The widths present for each `VLEN`, and the schedule's loop: at each width one chunk again and again
while `rem ≥ w`, then the rest to the next narrower width. -/
def Obligations.ScheduleFollowsTheLoop : Prop :=
  widthsPresent .v512 = [64, 32, 16, 8, 4, 1] ∧ widthsPresent .v256 = [32, 16, 8, 4, 1] ∧
  widthsPresent .v128 = [16, 8, 4, 1] ∧ widthsPresent .v64 = [8, 4, 1] ∧
  (∀ v w, w ∈ widthsPresent v ↔ w ∈ [64, 32, 16, 8, 4, 1] ∧ 8 * w ≤ v.bits) ∧
  (∀ rem, schedule [] rem = []) ∧
  ∀ (w : Nat) (ws : List Nat) (rem : Nat), 1 ≤ w →
    (w ≤ rem → schedule (w :: ws) rem = w :: schedule (w :: ws) (rem - w)) ∧
    (rem < w → schedule (w :: ws) rem = schedule ws rem)

/-- R117. The closed form of the schedule, its length, and that its chunks tile the region. -/
def Obligations.ScheduleClosedForm : Prop :=
  ∀ (v : VLen) (size : Nat),
    schedule (widthsPresent v) size = closedSchedule v size ∧
    (schedule (widthsPresent v) size).length = chunkCount v size ∧
    (schedule (widthsPresent v) size).sum = size ∧
    ∀ j w, (schedule (widthsPresent v) size)[j]? = some w →
      ((schedule (widthsPresent v) size).take j).sum + w ≤ size

/-- R118, R119, R160. A `COPY` past its checks issues, for each chunk in schedule order, its read beat and then its
write beat of the same bytes, which are the bytes `MEM` held before the command; the beats are `2 * chunks`, the
read beats inside the source region and the write beats inside the destination region. -/
def Obligations.BeatsFollowTheSchedule : Prop :=
  ∀ (s : State) (dst src size : Nat), 1 ≤ size → src + size ≤ s.cfg.memBytes → dst + size ≤ s.cfg.memBytes →
    (src + size ≤ dst ∨ dst + size ≤ src) →
    ∃ t : State, exec (.copy dst src size) s = .next t ∧
      t.beats = s.beats ++ plannedBeats s.mem dst src 0 (schedule (widthsPresent s.cfg.vlen) size) ∧
      (∀ b ∈ plannedBeats s.mem dst src 0 (schedule (widthsPresent s.cfg.vlen) size),
        (b.kind = .read → src ≤ b.addr ∧ b.addr + b.data.length ≤ src + size) ∧
        (b.kind = .write → dst ≤ b.addr ∧ b.addr + b.data.length ≤ dst + size)) ∧
      t.beats.length = s.beats.length + 2 * chunkCount s.cfg.vlen size ∧
      chunkCount s.cfg.vlen size ≤ size / (s.cfg.vlen.bits / 8) + 7

/-- R120. A successful `COPY` reads each byte of its source exactly once and writes each byte of its destination
exactly once, in ascending order, and touches no other byte; every beat has a width the block has (20_memory.md
R36). -/
def Obligations.EachByteIsMovedOnce : Prop :=
  ∀ (s : State) (dst src size : Nat), 1 ≤ size → src + size ≤ s.cfg.memBytes → dst + size ≤ s.cfg.memBytes →
    (src + size ≤ dst ∨ dst + size ≤ src) →
    ∃ (t : State) (bs : List Beat), exec (.copy dst src size) s = .next t ∧ t.beats = s.beats ++ bs ∧
      addressesOf .read bs = List.range' src size ∧ addressesOf .write bs = List.range' dst size ∧
      ∀ b ∈ bs, beatLegal s.cfg b

/-- R121. The response and the final contents of `MEM` after a `COPY` do not depend on `VLEN`: only the beats do. -/
def Obligations.CopyDoesNotShowVlen : Prop :=
  ∀ (s : State) (v : VLen) (dst src size : Nat), s.mem.wf →
    ∃ (t : State) (bs : List Beat), exec (.copy dst src size) s = .next t ∧
      exec (.copy dst src size) { s with cfg := { s.cfg with vlen := v } } =
        .next { t with cfg := { s.cfg with vlen := v }, beats := bs }

/-- R124, 10_state.md R26. The state machine of the datapath, started on `size` bytes with anything in its staging
register, comes to `DONE` with `rem = 0` and `off = size` within `size div W + 13` transitions, and leaves `MEM`
and the beats that the command's effect says. -/
def Obligations.DatapathMeetsTheSchedule : Prop :=
  ∀ (v : VLen) (dst src size V : Nat) (m : Memory), ∃ n ≤ size / (v.bits / 8) + 13,
    let d := datapathRun dst src n (datapathStart v size V m)
    d.tier = .DONE ∧ d.rem = 0 ∧ d.off = size ∧ d.mem = (copyMove v dst src size m).1 ∧
      d.beats = (copyMove v dst src size m).2

/-- R122. `COPY` reads none of `VALID`, `CAP`, `HEAD`, `TAIL` and writes none: in states that differ only in these it
does the same and they stay as they are. -/
def Obligations.CopyIgnoresTheRing : Prop :=
  ∀ (s : State) (dst src size cap head tail : Nat) (valid : Bool), ∃ t : State,
    exec (.copy dst src size) s = .next t ∧
    t.valid = s.valid ∧ t.cap = s.cap ∧ t.head = s.head ∧ t.tail = s.tail ∧
    exec (.copy dst src size) { s with valid := valid, cap := cap, head := head, tail := tail } =
      .next { t with valid := valid, cap := cap, head := head, tail := tail }

/-- 00_scope.md R1. The controller never reads or writes memory: every command but `COPY` does the same whatever
`MEM` holds, leaves every byte as it was, and issues no beat. -/
def Obligations.ControllerIgnoresMemory : Prop :=
  ∀ (i : Instr) (s : State) (m : Memory), i.opcode ≠ .copy → ∃ t : State,
    exec i s = .next t ∧ t.mem = s.mem ∧ t.beats = s.beats ∧
    exec i { s with mem := m } = .next { t with mem := m }

/-- 20_memory.md R34. When the datapath moves a chunk of `w` bytes from `A` to `B`, lane `k` of the staging register,
`V[8k+7 : 8k]`, holds `MEM[A + k]`, its write beat stores lane `k` at `B + k` and nothing else, and both beats carry the
lanes in order; and byte `k` of each beat of a `COPY` past its checks is the byte at that beat's address plus `k`: of
`MEM` before the command for a read beat, of `MEM` after it for a write beat. -/
def Obligations.StagingLanesAreLittleEndian : Prop :=
  (∀ (dst src w : Nat) (d : Datapath), tierWidth d.tier = some w → w ≤ d.rem →
    let t := datapathTick dst src d
    (∀ k < w, BitVec.ofNat 8 (t.staging / 2 ^ (8 * k)) = d.mem.read (src + d.off + k) ∧
      t.mem.read (dst + d.off + k) = BitVec.ofNat 8 (t.staging / 2 ^ (8 * k))) ∧
    (∀ a, a < dst + d.off ∨ dst + d.off + w ≤ a → t.mem.read a = d.mem.read a) ∧
    ∃ lanes : List Byte, lanes.length = w ∧
      (∀ (k : Nat) (v : Byte), lanes[k]? = some v → v = BitVec.ofNat 8 (t.staging / 2 ^ (8 * k))) ∧
      t.beats = d.beats ++ [{ kind := .read, addr := src + d.off, data := lanes },
        { kind := .write, addr := dst + d.off, data := lanes }]) ∧
  ∀ (s : State) (dst src size : Nat), 1 ≤ size → src + size ≤ s.cfg.memBytes → dst + size ≤ s.cfg.memBytes →
    (src + size ≤ dst ∨ dst + size ≤ src) →
    ∃ (t : State) (bs : List Beat), exec (.copy dst src size) s = .next t ∧ t.beats = s.beats ++ bs ∧
      ∀ b ∈ bs, ∀ (k : Nat) (v : Byte), b.data[k]? = some v →
        (b.kind = .read → v = s.mem.read (b.addr + k)) ∧ (b.kind = .write → v = t.mem.read (b.addr + k))

/-! ### Faults (60_exceptions.md) -/

/-- Every command word, in every state of a legal configuration, is answered exactly once, in its order, with its own
`op` and a status of the table, and is then done (30_encoding.md R52, 70_reset_and_hazards.md R160). -/
def Obligations.EveryCommandIsAnsweredOnce : Prop :=
  ∀ (s : State) (w : Nat) (rest : List Input), s.cfg.valid → s.inputs = .command w :: rest →
    ∃ (t : State) (r : Response), step s = .next t ∧ t.responses = s.responses ++ [r] ∧
      r.op = BitVec.ofNat 8 (w % 256) ∧ r.status.toNat ≤ 9 ∧ t.inputs = rest

/-- R133. The response of a faulting command is `(cmd.op, code, cmd.a)`, in its place in the order of responses: it
is the one response that the command's step adds, after all earlier ones, just where a successful command's stands; and
with `ERR` it is all that the step leaves. -/
def Obligations.FaultsAreDeliveredInTheResponse : Prop :=
  ∀ (s : State) (w : Nat) (rest : List Input), s.cfg.valid → s.inputs = .command w :: rest →
    ∃ (t : State) (r : Response), step s = .next t ∧ t.responses = s.responses ++ [r] ∧
      (r.status ≠ 0x00 →
        r = { op := BitVec.ofNat 8 (w % 256), status := r.status, value := w / 2 ^ 8 % 2 ^ s.cfg.xlen.bits } ∧
        1 ≤ r.status.toNat ∧ r.status.toNat ≤ 9 ∧
        t = { s with inputs := rest, err := t.err, responses := s.responses ++ [r] })

/-- R134. A command that faults with code `k` makes `ERR` be `k` if it was 0x00 and leaves it otherwise; a command
that answers `OK` never changes it; and only a reset clears it. -/
def Obligations.ErrHoldsTheFirstFault : Prop :=
  (∀ (s t : State) (w : Nat) (rest : List Input) (r : Response), s.cfg.valid → s.inputs = .command w :: rest →
    step s = .next t → t.responses = s.responses ++ [r] →
    (r.status = 0x00 → t.err = s.err) ∧
    (r.status ≠ 0x00 → s.err = 0x00 → t.err = r.status) ∧
    (r.status ≠ 0x00 → s.err ≠ 0x00 → t.err = s.err)) ∧
  (∀ s t : State, step s = .next t → s.err ≠ 0x00 → t.err = 0x00 →
    ∃ rest : List Input, s.inputs = .reset :: rest ∨ ∃ w landed issued, s.inputs = .resetDuring w landed issued :: rest)

/-- R135. A faulting command changes none of `VALID`, `CAP`, `HEAD`, `TAIL` and no byte of `MEM`: the only trace it
leaves is `ERR` and its response. -/
def Obligations.FaultsHaveNoSideEffects : Prop :=
  ∀ (s t : State) (w : Nat) (rest : List Input) (r : Response), s.cfg.valid → s.inputs = .command w :: rest →
    step s = .next t → t.responses = s.responses ++ [r] → r.status ≠ 0x00 →
    t = { s with inputs := rest, err := t.err, responses := t.responses }

/-- R132, R130. A command raises the first fault that applies in the order of the table, and none if none applies. -/
def Obligations.TheFirstCauseIsRaised : Prop :=
  ∀ (s t : State) (w : Nat) (rest : List Input) (r : Response), s.cfg.valid → s.inputs = .command w :: rest →
    step s = .next t → t.responses = s.responses ++ [r] →
    firstCause (faultCauses s (Command.ofWord s.cfg.xlen w)) r.status

/-- R131. `STATUS` raises no fault but `E_ILLEGAL`; `COPY` never raises `E_NOT_CONSTRUCTED` or
`E_ALREADY_CONSTRUCTED`; `CONSTRUCT` never raises `E_NOT_CONSTRUCTED`; the queries raise only `E_ILLEGAL` and
`E_NOT_CONSTRUCTED`, and with a well-formed command and a constructed ring they cannot fault; the advances and
`COPY` then fault exactly when the host breaks their precondition. -/
def Obligations.FaultsOfEachCommand : Prop :=
  (∀ (s t : State) (w : Nat) (rest : List Input) (r : Response), s.cfg.valid → s.inputs = .command w :: rest →
    step s = .next t → t.responses = s.responses ++ [r] →
    (r.op = 0x03 → r.status = 0x00 ∨ r.status = 0x01) ∧
    (r.op = 0x30 → r.status ≠ 0x04 ∧ r.status ≠ 0x05) ∧
    (r.op = 0x01 → r.status ≠ 0x04) ∧
    (0x10 ≤ r.op.toNat → r.op.toNat ≤ 0x17 → r.status = 0x00 ∨ r.status = 0x01 ∨ r.status = 0x04) ∧
    (0x10 ≤ r.op.toNat → r.op.toNat ≤ 0x17 → s.valid = true → (∃ i, decode s.cfg.xlen w = .ok i) →
      r.status = 0x00)) ∧
  (∀ (s t : State) (i : Instr) (r : Response), exec i s = .next t → t.responses = s.responses ++ [r] →
    s.valid = true →
    (∀ n, i = .advHead n → (r.status ≠ 0x00 ↔ s.free ≤ n)) ∧
    (∀ n, i = .advTail n → (r.status ≠ 0x00 ↔ s.filled < n)) ∧
    (∀ dst src size, i = .copy dst src size → (r.status ≠ 0x00 ↔ 1 ≤ size ∧
      (s.cfg.memBytes < src + size ∨ s.cfg.memBytes < dst + size ∨ (dst < src + size ∧ src < dst + size)))))

/-- 10_state.md R22. `ERR` has no effect on the execution of any command: but for `STATUS`, which reports it, a
command does in a state with another `ERR` exactly what it does in this one, except for the value of `ERR`. -/
def Obligations.ErrDoesNotAffectExecution : Prop :=
  ∀ (i : Instr) (s : State) (e : Byte), i ≠ .status → ∃ (t : State) (e' : Byte),
    exec i s = .next t ∧ exec i { s with err := e } = .next { t with err := e' }

/-- R140. No fault is fatal: after any fault every command still completes; after a failed `CONSTRUCT` there is
still no ring, and a `CONSTRUCT` with a legal capacity succeeds. -/
def Obligations.FailedConstructIsNotFatal : Prop :=
  (∀ (s : State) (op k : Byte) (a : Nat) (i : Instr), ∃ t : State, exec i (s.faulted op k a) = .next t) ∧
  ∀ (s : State) (bad good : Nat), s.valid = false → (bad = 0 ∨ s.cfg.storageBytes < bad) →
    1 ≤ good → good ≤ s.cfg.storageBytes →
    ∃ t u : State, exec (.construct bad) s = .next t ∧ t.valid = false ∧
      exec (.construct good) t = .next u ∧ u.valid = true ∧ u.cap = good ∧ u.head = 0 ∧ u.tail = 0

/-! ### The state (10_state.md, 20_memory.md, 70_reset_and_hazards.md) -/

/-- R11. `VALID` is set only by a successful `CONSTRUCT`, and cleared only by a successful `DESTROY` and by reset. -/
def Obligations.ValidChangesOnlyAsItsRuleSays : Prop :=
  ∀ s t : State, step s = .next t →
    (s.valid = false → t.valid = true → ∃ (w n : Nat) (rest : List Input),
      s.inputs = .command w :: rest ∧ decode s.cfg.xlen w = .ok (.construct n) ∧ 1 ≤ n ∧ n ≤ s.cfg.storageBytes) ∧
    (s.valid = true → t.valid = false → ∃ rest : List Input,
      (∃ w, s.inputs = .command w :: rest ∧ decode s.cfg.xlen w = .ok .destroy) ∨ s.inputs = .reset :: rest ∨
      ∃ w landed issued, s.inputs = .resetDuring w landed issued :: rest)

/-- R12, R13, R14, 00_scope.md R6. During the life of a ring object `CAP` does not change, only `ADV_HEAD` moves
`HEAD`, and only `ADV_TAIL` moves `TAIL`; the ranges of the three registers are kept; and no step changes a build
parameter. -/
def Obligations.RegistersMoveOnlyByTheirCommand : Prop :=
  ∀ s t : State, step s = .next t → t.cfg = s.cfg ∧
    (s.Inv → (t.valid = true → 1 ≤ t.cap ∧ t.cap ≤ t.cfg.storageBytes ∧ t.head < t.cap ∧ t.tail < t.cap ∧
        t.cap < 2 ^ t.cfg.xlen.bits) ∧
      (t.valid = false → t.cap = 0 ∧ t.head = 0 ∧ t.tail = 0)) ∧
    (s.valid = true → t.valid = true → t.cap = s.cap ∧
      (t.head ≠ s.head → ∃ (w n : Nat) (rest : List Input),
        s.inputs = .command w :: rest ∧ decode s.cfg.xlen w = .ok (.advHead n)) ∧
      (t.tail ≠ s.tail → ∃ (w n : Nat) (rest : List Input),
        s.inputs = .command w :: rest ∧ decode s.cfg.xlen w = .ok (.advTail n)))

/-- The invariant holds right after reset, whatever legal configuration and whatever launch memory in canonical form
the machine has; the reference configuration and the blank memory of `State.reset` are the model's choices (log 1,
log 2) and are one of these. -/
def Obligations.ResetMeetsTheInvariant : Prop :=
  (∀ (c : Config) (m : Memory), c.valid → m.wf → m.inside c.memBytes → (State.launch c m).Inv) ∧ State.reset.Inv

/-- The invariant, that the ring registers stay in their ranges, `ERR` and every response legal, every beat inside
`MEM` and of a legal width, and `MEM` in canonical form, is kept by every step. -/
def Obligations.EveryStepKeepsTheInvariant : Prop :=
  ∀ s t : State, s.Inv → step s = .next t → t.Inv

/-- R23. INV1 to INV6 hold after every step from a state that meets the invariant, while `VALID = 1`; `CAP` keeps the
value given to the `CONSTRUCT` that set `VALID`. -/
def Obligations.RingInvariantsHold : Prop :=
  ∀ s t : State, s.Inv → step s = .next t → t.valid = true →
    (t.head < t.cap ∧ t.tail < t.cap) ∧
    t.filled + t.free = t.cap ∧
    (t.filled ≤ t.cap - 1 ∧ 1 ≤ t.free ∧ t.free ≤ t.cap) ∧
    (t.headToEnd + t.head = t.cap ∧ t.tailToEnd + t.tail = t.cap) ∧
    (t.filled = 0 ↔ t.head = t.tail) ∧
    (1 ≤ t.cap ∧ t.cap ≤ t.cfg.storageBytes ∧ (s.valid = true → t.cap = s.cap) ∧
      (s.valid = false → ∃ (w : Nat) (rest : List Input), s.inputs = .command w :: rest ∧
        decode s.cfg.xlen w = .ok (.construct t.cap)))

/-- R24. The filled region and the free region are disjoint and together are all the positions; the last position of
the free region is the one just before `TAIL`, and no `ADV_HEAD` makes it part of the filled region; a ring of
capacity 1 holds nothing. -/
def Obligations.RegionsPartitionTheRing : Prop :=
  ∀ s : State, s.ringOk → s.valid = true →
    (s.filledPositions ++ s.freePositions).Perm (List.range s.cap) ∧
    s.wrap (s.wrap s.head (s.free - 1)) 1 = s.tail ∧
    (∀ n, ∃ t : State, exec (.advHead n) s = .next t ∧ s.wrap s.head (s.free - 1) ∉ t.filledPositions) ∧
    (s.cap = 1 → s.filledPositions = [])

/-- R28, R150. Reset gives the five registers their reset values and writes no byte of `MEM`, whose contents at
launch are anything; the registers are those of a successful `DESTROY` but for `ERR`; and besides reset only a
command changes a register. -/
def Obligations.ResetSetsTheRegisters : Prop :=
  (∀ (c : Config) (m : Memory), (State.launch c m).valid = false ∧ (State.launch c m).cap = 0 ∧
    (State.launch c m).head = 0 ∧ (State.launch c m).tail = 0 ∧ (State.launch c m).err = 0x00 ∧
    (State.launch c m).mem = m) ∧
  (∀ (s : State) (rest : List Input), s.cfg.valid → s.inputs = .reset :: rest →
    step s = .next { s with valid := false, cap := 0, head := 0, tail := 0, err := 0x00, inputs := rest }) ∧
  (∀ s : State, s.valid = true → ∃ t : State, exec .destroy s = .next t ∧
    t.valid = false ∧ t.cap = 0 ∧ t.head = 0 ∧ t.tail = 0 ∧ t.err = s.err) ∧
  (∀ s t : State, step s = .next t →
    (t.valid = s.valid ∧ t.cap = s.cap ∧ t.head = s.head ∧ t.tail = s.tail ∧ t.err = s.err) ∨
    ∃ rest : List Input, (∃ w, s.inputs = .command w :: rest) ∨ s.inputs = .reset :: rest ∨
      ∃ w landed issued, s.inputs = .resetDuring w landed issued :: rest)

/-- 70_reset_and_hazards.md R151. A reset in mid-command gives no response and resets the registers; if the command was
a `COPY` past its checks, each byte of its destination holds its old value or the value the completed command would have
given it, and every byte outside is unchanged; after any other command, and after a `COPY` that moves nothing, `MEM` is
unchanged. That the event says which bytes landed is the model's choice (log 10), and so is that the beats issued are
the first so many of the `COPY`'s, a number the event says (logs 5 and 10, from 43_tiered_copy.md R118). -/
def Obligations.ResetAbandonsACommand : Prop :=
  ∀ (s : State) (w : Nat) (landed : List Nat) (issued : Nat) (rest : List Input),
    s.cfg.valid → s.inputs = .resetDuring w landed issued :: rest →
    ∃ t : State, step s = .next t ∧
      t = { s with
        valid := false, cap := 0, head := 0, tail := 0, err := 0x00, inputs := rest, mem := t.mem, beats := t.beats } ∧
      (∀ dst src size, decode s.cfg.xlen w = .ok (.copy dst src size) →
        1 ≤ size → src + size ≤ s.cfg.memBytes → dst + size ≤ s.cfg.memBytes →
        (src + size ≤ dst ∨ dst + size ≤ src) →
        (∀ a, dst ≤ a → a < dst + size → t.mem.read a =
          if a - dst ∈ landed then s.mem.read (src + (a - dst)) else s.mem.read a) ∧
        (∀ a, a < dst ∨ dst + size ≤ a → t.mem.read a = s.mem.read a) ∧
        t.beats = s.beats ++
          (plannedBeats s.mem dst src 0 (schedule (widthsPresent s.cfg.vlen) size)).take issued) ∧
      ((∀ dst src size, decode s.cfg.xlen w = .ok (.copy dst src size) →
        ¬ (1 ≤ size ∧ src + size ≤ s.cfg.memBytes ∧ dst + size ≤ s.cfg.memBytes ∧
          (src + size ≤ dst ∨ dst + size ≤ src))) → t.mem = s.mem ∧ t.beats = s.beats)

/-- 20_memory.md R43, R44. Between commands the host writes and reads any byte of `MEM`: a write changes that byte
only, a read returns the byte and changes nothing, and neither changes a register; where there is no byte the run
stops with `hostAccessOutsideMem` (the model's choice, log 8). If the host touches the regions of a `COPY` in flight
(70_reset_and_hazards.md R154; an event of the model, log 11), no register changes, the command answers `OK`, and it
issues every beat of its schedule, which carry the bytes of a memory `m` that differs from `MEM` before at most in
touched bytes of the two regions; each destination byte ends as the byte carried to it, or as the event lists it, each
source byte as it was in `m`, or as the event lists it, and every byte outside the two regions is unchanged. -/
def Obligations.HostAccessesMemory : Prop :=
  (∀ (s : State) (a : Nat) (v : Byte) (rest : List Input), s.cfg.valid →
    (s.inputs = .hostWrite a v :: rest → a < s.cfg.memBytes → ∃ t : State, step s = .next t ∧
      t = { s with inputs := rest, mem := t.mem } ∧
      ∀ x, t.mem.read x = if x = a then v else s.mem.read x) ∧
    (s.inputs = .hostRead a :: rest → a < s.cfg.memBytes →
      step s = .next { s with inputs := rest, hostReads := s.hostReads ++ [(a, s.mem.read a)] }) ∧
    (s.inputs = .hostWrite a v :: rest ∨ s.inputs = .hostRead a :: rest → s.cfg.memBytes ≤ a →
      step s = .fault (.hostAccessOutsideMem a))) ∧
  (∀ (s : State) (w : Nat) (seen ends reads : List Host.Cell) (rest : List Input) (dst src size : Nat), s.cfg.valid →
    s.inputs = .racedCopy w seen ends reads :: rest → decode s.cfg.xlen w = .ok (.copy dst src size) →
    1 ≤ size → src + size ≤ s.cfg.memBytes → dst + size ≤ s.cfg.memBytes →
    (src + size ≤ dst ∨ dst + size ≤ src) →
    ∃ (t : State) (m : Memory) (rs : List Host.Cell), step s = .next t ∧
      t = { s with
        inputs := rest, mem := t.mem, hostReads := s.hostReads ++ rs,
        beats := s.beats ++ plannedBeats m dst src 0 (schedule (widthsPresent s.cfg.vlen) size) }.answered 0x30 dst ∧
      (∀ x, m.read x = s.mem.read x ∨
        (((dst ≤ x ∧ x < dst + size) ∨ (src ≤ x ∧ x < src + size)) ∧ (x, m.read x) ∈ seen)) ∧
      (∀ i < size, t.mem.read (dst + i) = m.read (src + i) ∨ (dst + i, t.mem.read (dst + i)) ∈ ends) ∧
      (∀ i < size, t.mem.read (src + i) = m.read (src + i) ∨ (src + i, t.mem.read (src + i)) ∈ ends) ∧
      (∀ x, (x < dst ∨ dst + size ≤ x) → (x < src ∨ src + size ≤ x) → t.mem.read x = s.mem.read x) ∧
      ∀ p ∈ rs, p ∈ reads ∧ ((dst ≤ p.1 ∧ p.1 < dst + size) ∨ (src ≤ p.1 ∧ p.1 < src + size)))

/-- Memories in canonical form over one unwritten byte that read alike are the same data (the form is the model's,
log 2). -/
def Obligations.EqualMemoriesAreEqualData : Prop :=
  ∀ m m' : Memory, m.wf → m'.wf → m.unwritten = m'.unwritten → (∀ a, m.read a = m'.read a) → m = m'

/-- 70_reset_and_hazards.md R152. After reset the only ring command that can succeed is `CONSTRUCT`: every command
that needs a ring answers `E_NOT_CONSTRUCTED`; `CONSTRUCT c` succeeds for `1 ≤ c ≤ STORAGE_BYTES`; `COPY` and
`STATUS` work from reset on. -/
def Obligations.BootBeginsWithConstruct : Prop :=
  ∀ (c : Config) (m : Memory) (i : Instr) (n dst src : Nat),
    (opcodeNeedsRing i.opcode = true → ∃ t : State, exec i (State.launch c m) = .next t ∧ t.err = 0x04 ∧
      t.responses.map (fun r => r.status) = [0x04]) ∧
    (1 ≤ n → n ≤ c.storageBytes → ∃ t : State, exec (.construct n) (State.launch c m) = .next t ∧
      t.valid = true ∧ t.cap = n ∧ t.head = 0 ∧ t.tail = 0 ∧ t.ringOk) ∧
    (exec .status (State.launch c m) = .next ((State.launch c m).answered 0x03 0)) ∧
    (1 ≤ n → src + n ≤ c.memBytes → dst + n ≤ c.memBytes → (src + n ≤ dst ∨ dst + n ≤ src) →
      ∃ t : State, exec (.copy dst src n) (State.launch c m) = .next t ∧ ∀ k < n, t.mem.read (dst + k) = m.read (src + k))

/-! ### The host's use of the block -/

/-- 70_reset_and_hazards.md R155. A `COPY` that keeps to the run the rule allows writes its bytes at the positions
ahead of `HEAD`, without wrapping, and touches no byte the ring holds. -/
def Obligations.CopyIntoTheFreeRunKeepsTheRing : Prop :=
  ∀ (s : State) (k dst src size : Nat), s.cfg.valid → s.ringOk → s.valid = true →
    s.copyIntoRing k dst size → 1 ≤ size → src + size ≤ s.cfg.memBytes → (src + size ≤ dst ∨ dst + size ≤ src) →
    ∃ t : State, exec (.copy dst src size) s = .next t ∧ t.contents = s.contents ∧
      ∀ i < size, t.ringByte (t.wrap t.head (k + i)) = s.mem.read (src + i)

/-- 43_tiered_copy.md R123. After `WRITE buf, n` then `READ buf2, n` on a ring that was empty, with the host's
buffers inside `MEM` and outside the storage, `MEM[buf2 + i]` is what `MEM[buf + i]` was, for every `i < n`, and no
command of the two sequences faulted. -/
def Obligations.WriteThenReadReturnsTheBytes : Prop :=
  ∀ (s : State) (buf buf2 n : Nat), s.Inv → s.valid = true → s.head = s.tail → n + 1 ≤ s.free →
    s.bufferOk buf n → s.bufferOk buf2 n →
    ∃ t u : State, execAll (s.writeSequence buf n) s = .next t ∧ execAll (t.readSequence buf2 n) t = .next u ∧
      (∀ i < n, u.mem.read (buf2 + i) = s.mem.read (buf + i)) ∧
      t.filled = n ∧ u.filled = 0 ∧
      ∃ rs : List Response, u.responses = s.responses ++ rs ∧ ∀ r ∈ rs, r.status = 0x00
end

