-- ==== Sys2Proof/Laws/Memory.lean ====
section
/-! SUPPORT. The laws of `MEM`: read after write, and that every memory operation keeps the canonical form. -/

namespace Sys2Proof.Machine

/-! ### Lists of cells -/

theorem cellsFind_insert (ps : List Host.Cell) (a x : Nat) (v : Byte) :
    cellsFind (cellsInsert ps a v) x = if x = a then some v else cellsFind ps x := by
  induction ps with
  | nil => simp [cellsInsert, cellsFind, eq_comm]
  | cons p ps ih =>
    simp only [cellsInsert]
    split
    · by_cases hx : p.1 = x
      · have : x ≠ a := by omega
        simp [cellsFind, hx, this]
      · simp [cellsFind, hx, ih]
    · split
      · by_cases hx : x = a
        · simp [cellsFind, hx]
        · have h1 : a ≠ x := fun h => hx h.symm
          have h2 : p.1 ≠ x := by omega
          simp [cellsFind, hx, h1, h2]
      · by_cases hx : x = a
        · simp [cellsFind, hx]
        · have h1 : a ≠ x := fun h => hx h.symm
          simp [cellsFind, hx, h1]

theorem cellsFind_filter (ps : List Host.Cell) (a x : Nat) :
    cellsFind (ps.filter (fun p => p.1 != a)) x = if x = a then none else cellsFind ps x := by
  induction ps with
  | nil => simp [cellsFind]
  | cons p ps ih =>
    by_cases hp : p.1 = a
    · have hkeep : (p :: ps).filter (fun p => p.1 != a) = ps.filter (fun p => p.1 != a) := by simp [hp]
      rw [hkeep, ih]
      by_cases hx : x = a
      · rw [if_pos hx, if_pos hx]
      · have : ¬ p.1 = x := by omega
        simp [cellsFind, hx, this]
    · have hkeep : (p :: ps).filter (fun p => p.1 != a) = p :: ps.filter (fun p => p.1 != a) := by simp [hp]
      rw [hkeep]
      by_cases hx : x = a
      · have hne : ¬ p.1 = x := by omega
        simp only [cellsFind, if_neg hne, ih, if_pos hx]
      · simp [cellsFind, ih, hx]

theorem mem_cellsInsert {ps : List Host.Cell} {a : Nat} {v : Byte} {q : Host.Cell}
    (h : q ∈ cellsInsert ps a v) : q = (a, v) ∨ q ∈ ps := by
  induction ps with
  | nil => simpa [cellsInsert] using h
  | cons p ps ih =>
    simp only [cellsInsert] at h
    split at h
    · rcases List.mem_cons.1 h with h | h
      · exact .inr (by simp [h])
      · rcases ih h with h | h
        · exact .inl h
        · exact .inr (List.mem_cons_of_mem _ h)
    · split at h
      · rcases List.mem_cons.1 h with h | h
        · exact .inl h
        · exact .inr (List.mem_cons_of_mem _ h)
      · rcases List.mem_cons.1 h with h | h
        · exact .inl h
        · exact .inr h

theorem cellsInsert_sorted {ps : List Host.Cell} (h : ps.Pairwise (fun p q => p.1 < q.1)) (a : Nat) (v : Byte) :
    (cellsInsert ps a v).Pairwise (fun p q => p.1 < q.1) := by
  induction ps with
  | nil => simp [cellsInsert]
  | cons p ps ih =>
    obtain ⟨hp, hps⟩ := List.pairwise_cons.1 h
    simp only [cellsInsert]
    split
    · rename_i hlt
      refine List.pairwise_cons.2 ⟨fun q hq => ?_, ih hps⟩
      rcases mem_cellsInsert hq with rfl | hq
      · exact hlt
      · exact hp q hq
    · split
      · rename_i heq
        refine List.pairwise_cons.2 ⟨fun q hq => ?_, hps⟩
        have := hp q hq
        simp only
        omega
      · refine List.pairwise_cons.2 ⟨fun q hq => ?_, h⟩
        rcases List.mem_cons.1 hq with rfl | hq
        · simp only
          omega
        · have := hp q hq
          simp only
          omega

/-- What a sorted list lists first is below everything else it finds. -/
theorem cellsFind_none_of_lt {ps : List Host.Cell} {a : Nat} (h : ∀ p ∈ ps, a < p.1) : cellsFind ps a = none := by
  induction ps with
  | nil => rfl
  | cons p ps ih =>
    have hp := h p (by simp)
    have : ¬ p.1 = a := by omega
    simp [cellsFind, this, ih fun q hq => h q (List.mem_cons_of_mem _ hq)]

/-- In a sorted list a cell is found at its own address. -/
theorem cellsFind_of_mem {ps : List Host.Cell} (h : ps.Pairwise (fun p q => p.1 < q.1)) {q : Host.Cell}
    (hq : q ∈ ps) : cellsFind ps q.1 = some q.2 := by
  induction ps with
  | nil => simp at hq
  | cons p ps ih =>
    obtain ⟨hp, hps⟩ := List.pairwise_cons.1 h
    rcases List.mem_cons.1 hq with rfl | hq
    · simp [cellsFind]
    · have := hp q hq
      have hne : ¬ p.1 = q.1 := by omega
      simp [cellsFind, hne, ih hps hq]

/-- What is found is a cell of the list. -/
theorem mem_of_cellsFind {ps : List Host.Cell} {a : Nat} {v : Byte} (h : cellsFind ps a = some v) : (a, v) ∈ ps := by
  induction ps with
  | nil => simp [cellsFind] at h
  | cons p ps ih =>
    simp only [cellsFind] at h
    split at h
    · rename_i hp
      obtain rfl := Option.some.inj h
      simp [← hp]
    · exact List.mem_cons_of_mem _ (ih h)

/-! ### `MEM[a]` and `MEM[a] <- v` -/

/-- Read after write: the byte written is read back, and every other byte reads as before. -/
@[simp] theorem Memory.read_write (m : Memory) (a x : Nat) (v : Byte) :
    (m.write a v).read x = if x = a then v else m.read x := by
  by_cases hv : v = m.unwritten
  · by_cases hx : x = a <;> simp [Memory.read, Memory.write, hv, cellsFind_filter, hx]
  · by_cases hx : x = a <;> simp [Memory.read, Memory.write, hv, cellsFind_insert, hx]

@[simp] theorem Memory.unwritten_write (m : Memory) (a : Nat) (v : Byte) :
    (m.write a v).unwritten = m.unwritten := rfl

/-- Writing keeps the canonical form. -/
theorem Memory.write_wf {m : Memory} (h : m.wf) (a : Nat) (v : Byte) : (m.write a v).wf := by
  obtain ⟨hs, hu⟩ := h
  by_cases hv : v = m.unwritten
  · refine ⟨?_, ?_⟩
    · simpa [Memory.write, hv] using hs.filter _
    · intro p hp
      simp only [Memory.write, hv, if_true] at hp
      exact hu p (List.mem_filter.1 hp).1
  · refine ⟨?_, ?_⟩
    · simpa [Memory.write, hv] using cellsInsert_sorted hs a v
    · intro p hp
      simp only [Memory.write, hv, if_false] at hp
      rcases mem_cellsInsert hp with rfl | hp
      · exact hv
      · exact hu p hp

/-- Writing inside `MEM` lists only addresses of `MEM`. -/
theorem Memory.write_inside {m : Memory} {n : Nat} (h : m.inside n) {a : Nat} (ha : a < n) (v : Byte) :
    (m.write a v).inside n := by
  intro p hp
  by_cases hv : v = m.unwritten
  · simp only [Memory.write, hv, if_true] at hp
    exact h p (List.mem_filter.1 hp).1
  · simp only [Memory.write, hv, if_false] at hp
    rcases mem_cellsInsert hp with rfl | hp
    · exact ha
    · exact h p hp

/-! ### `MemRead` and `MemWrite` -/

@[simp] theorem Memory.length_readBytes (m : Memory) (a : Nat) (n : Nat) : (m.readBytes a n).length = n := by
  induction n generalizing a with
  | zero => rfl
  | succ n ih => simp [Memory.readBytes, ih]

/-- Byte `k` of `MemRead(a, n)` is `MEM[a + k]`. -/
theorem Memory.getElem?_readBytes (m : Memory) (a : Nat) (n k : Nat) :
    (m.readBytes a n)[k]? = if k < n then some (m.read (a + k)) else none := by
  induction n generalizing a k with
  | zero => simp [Memory.readBytes]
  | succ n ih =>
    cases k with
    | zero => simp [Memory.readBytes]
    | succ k =>
      have : a + 1 + k = a + (k + 1) := by omega
      simp [Memory.readBytes, ih, this]

/-- `MemRead` of memories that agree on the region is equal. -/
theorem Memory.readBytes_congr {m m' : Memory} {a : Nat} {n : Nat}
    (h : ∀ k < n, m'.read (a + k) = m.read (a + k)) : m'.readBytes a n = m.readBytes a n := by
  apply List.ext_getElem?
  intro k
  rw [Memory.getElem?_readBytes, Memory.getElem?_readBytes]
  split
  · rename_i hk
    rw [h k hk]
  · rfl

@[simp] theorem Memory.unwritten_writeBytes (m : Memory) (a : Nat) (vs : List Byte) :
    (m.writeBytes a vs).unwritten = m.unwritten := by
  induction vs generalizing m a with
  | nil => rfl
  | cons v vs ih => simp [Memory.writeBytes, ih]

/-- Read after `MemWrite`: byte `k` of the sequence is read at `a + k`, every other byte as before. -/
theorem Memory.read_writeBytes (m : Memory) (a x : Nat) (vs : List Byte) :
    (m.writeBytes a vs).read x = if a ≤ x then (vs[x - a]?).getD (m.read x) else m.read x := by
  induction vs generalizing m a with
  | nil => simp [Memory.writeBytes]
  | cons v vs ih =>
    simp only [Memory.writeBytes, ih, Memory.read_write]
    by_cases h1 : a + 1 ≤ x
    · have h2 : a ≤ x := by omega
      have h3 : x - a = (x - (a + 1)) + 1 := by omega
      have h4 : x ≠ a := by omega
      simp [h1, h2, h3, h4]
    · by_cases h2 : x = a
      · subst h2
        simp
      · have h3 : ¬ a ≤ x := by omega
        simp [h1, h2, h3]

theorem Memory.writeBytes_wf {m : Memory} (h : m.wf) (a : Nat) (vs : List Byte) : (m.writeBytes a vs).wf := by
  induction vs generalizing m a with
  | nil => exact h
  | cons v vs ih => exact ih (Memory.write_wf h a v) (a + 1)

theorem Memory.writeBytes_inside {m : Memory} {n : Nat} (h : m.inside n) {a : Nat} {vs : List Byte}
    (ha : a + vs.length ≤ n) : (m.writeBytes a vs).inside n := by
  induction vs generalizing m a with
  | nil => exact h
  | cons v vs ih =>
    simp only [List.length_cons] at ha
    exact ih (Memory.write_inside h (by omega) v) (by omega)

/-- The blank memory is in canonical form. -/
theorem Memory.blank_wf : Memory.blank.wf := by decide

end Sys2Proof.Machine
end

