-- ==== Sys2Proof/Laws/Copy.lean ====
section
/-! SUPPORT. The laws of the tiered copy: what the schedule adds up to, and what moving its chunks does to `MEM`. -/

namespace Sys2Proof.Machine

/-! ### The schedule -/

theorem schedule_sum {ws : List Nat} (h1 : 1 ∈ ws) (rem : Nat) : (schedule ws rem).sum = rem := by
  induction ws generalizing rem with
  | nil => simp at h1
  | cons w ws ih =>
    simp only [schedule, List.sum_append, List.sum_replicate, smul_eq_mul]
    by_cases hw : w = 1
    · subst hw
      have hzero : ∀ (us : List Nat), (schedule us 0).sum = 0 := by
        intro us
        induction us with
        | nil => rfl
        | cons u us ihu => simp [schedule, ihu]
      simp [Nat.mod_one, hzero]
    · have h2 : 1 ∈ ws := by
        rcases List.mem_cons.1 h1 with h | h
        · exact absurd h.symm hw
        · exact h
      rw [ih h2, Nat.mul_comm]
      exact Nat.div_add_mod rem w

theorem mem_of_mem_schedule {ws : List Nat} {rem w : Nat} (h : w ∈ schedule ws rem) : w ∈ ws := by
  induction ws generalizing rem with
  | nil => simp [schedule] at h
  | cons u us ih =>
    rcases List.mem_append.1 h with h | h
    · simp [(List.mem_replicate.1 h).2]
    · exact List.mem_cons_of_mem _ (ih h)

theorem one_mem_widthsPresent (v : VLen) : 1 ∈ widthsPresent v := by
  cases v <;> decide

/-- The chunks of a `COPY` tile its region. -/
@[simp] theorem schedule_widthsPresent_sum (v : VLen) (size : Nat) : (schedule (widthsPresent v) size).sum = size :=
  schedule_sum (one_mem_widthsPresent v) size

/-! ### Moving chunks -/

/-- The regions of `n` bytes at `dst` and `src` share no byte. -/
def Apart (dst src n : Nat) : Prop := ∀ i < n, ∀ j < n, dst + i ≠ src + j

theorem apart_of_le {dst src n : Nat} (h : src + n ≤ dst ∨ dst + n ≤ src) : Apart dst src n := by
  intro i hi j hj
  omega

/-- Reading one chunk's source region after another chunk was written to the destination. -/
theorem Memory.read_src_writeBytes {m : Memory} {dst src n off x : Nat} {vs : List Byte} (h : Apart dst src n)
    (hw : off + vs.length ≤ n) (hx : x < n) : (m.writeBytes (dst + off) vs).read (src + x) = m.read (src + x) := by
  rw [Memory.read_writeBytes]
  split
  · rename_i hle
    rw [List.getElem?_eq_none]
    · rfl
    · by_contra hlt
      have hlt' : src + x - (dst + off) < vs.length := by omega
      exact h (src + x - dst) (by omega) x hx (by omega)
  · rfl

/-- What moving a list of chunks does to `MEM` (43_tiered_copy.md R110): the destination bytes take the values the
source bytes had, and no other byte changes. -/
theorem moveChunks_read {dst src n : Nat} (h : Apart dst src n) (ws : List Nat) (off : Nat) (m : Memory)
    (hn : off + ws.sum ≤ n) (x : Nat) :
    (moveChunks dst src off ws m).1.read x =
      if dst + off ≤ x ∧ x < dst + off + ws.sum then m.read (src + (x - dst)) else m.read x := by
  induction ws generalizing off m with
  | nil =>
    rw [if_neg (by simp)]
    rfl
  | cons w ws ih =>
    have hs : (w :: ws).sum = w + ws.sum := List.sum_cons
    have hlen : (m.readBytes (src + off) w).length = w := m.length_readBytes _ _
    have hstep : (moveChunks dst src off (w :: ws) m).1 =
        (moveChunks dst src (off + w) ws (m.writeBytes (dst + off) (m.readBytes (src + off) w))).1 := rfl
    rw [hstep, ih (off + w) _ (by omega)]
    by_cases h1 : dst + (off + w) ≤ x ∧ x < dst + (off + w) + ws.sum
    · have h2 : dst + off ≤ x ∧ x < dst + off + (w :: ws).sum := by omega
      rw [if_pos h1, if_pos h2, Memory.read_src_writeBytes h (by omega) (by omega)]
    · rw [if_neg h1, Memory.read_writeBytes, Memory.getElem?_readBytes]
      by_cases h3 : dst + off ≤ x
      · rw [if_pos h3]
        by_cases h4 : x - (dst + off) < w
        · have h2 : dst + off ≤ x ∧ x < dst + off + (w :: ws).sum := by omega
          have h5 : src + off + (x - (dst + off)) = src + (x - dst) := by omega
          rw [if_pos h4, if_pos h2, h5]
          rfl
        · have h2 : ¬ (dst + off ≤ x ∧ x < dst + off + (w :: ws).sum) := by omega
          rw [if_neg h4, if_neg h2]
          rfl
      · have h2 : ¬ (dst + off ≤ x ∧ x < dst + off + (w :: ws).sum) := by omega
        rw [if_neg h3, if_neg h2]

/-- The beats of a list of chunks carry the bytes `MEM` held before the first of them (R118, R119). -/
theorem moveChunks_beats {dst src n : Nat} (h : Apart dst src n) (ws : List Nat) (off : Nat) (m m₀ : Memory)
    (hn : off + ws.sum ≤ n) (hm : ∀ x, off ≤ x → x < n → m.read (src + x) = m₀.read (src + x)) :
    (moveChunks dst src off ws m).2 = plannedBeats m₀ dst src off ws := by
  induction ws generalizing off m with
  | nil => rfl
  | cons w ws ih =>
    simp only [List.sum_cons] at hn
    have hV : m.readBytes (src + off) w = m₀.readBytes (src + off) w := by
      refine Memory.readBytes_congr fun k hk => ?_
      rw [Nat.add_assoc]
      exact hm (off + k) (by omega) (by omega)
    simp only [moveChunks, plannedBeats, chunkBeats, hV, List.cons_append, List.nil_append]
    rw [ih (off + w) _ (by omega)]
    intro x hx hxn
    rw [Memory.read_src_writeBytes h (by simp; omega) hxn]
    exact hm x (by omega) hxn

theorem moveChunks_unwritten (dst src : Nat) (ws : List Nat) (off : Nat) (m : Memory) :
    (moveChunks dst src off ws m).1.unwritten = m.unwritten := by
  induction ws generalizing off m with
  | nil => rfl
  | cons w ws ih => simp [moveChunks, ih]

theorem moveChunks_wf {m : Memory} (h : m.wf) (dst src : Nat) (ws : List Nat) (off : Nat) :
    (moveChunks dst src off ws m).1.wf := by
  induction ws generalizing off m with
  | nil => exact h
  | cons w ws ih => exact ih (Memory.writeBytes_wf h _ _) (off + w)

theorem moveChunks_inside {m : Memory} {n : Nat} (h : m.inside n) (dst src : Nat) (ws : List Nat) (off : Nat)
    (hn : dst + off + ws.sum ≤ n) : (moveChunks dst src off ws m).1.inside n := by
  induction ws generalizing off m with
  | nil => exact h
  | cons w ws ih =>
    simp only [List.sum_cons] at hn
    exact ih (Memory.writeBytes_inside h (by simp; omega)) (off + w) (by omega)

/-- Every beat of a list of chunks has a width of the list and lies in one of the two regions (R118, R120). -/
theorem moveChunks_beat_mem {dst src : Nat} {ws : List Nat} {off : Nat} {m : Memory} {b : Beat}
    (hb : b ∈ (moveChunks dst src off ws m).2) :
    b.data.length ∈ ws ∧
      (b.addr + b.data.length ≤ src + off + ws.sum ∨ b.addr + b.data.length ≤ dst + off + ws.sum) := by
  induction ws generalizing off m with
  | nil => simp [moveChunks] at hb
  | cons w ws ih =>
    simp only [moveChunks] at hb
    rcases List.mem_append.1 hb with hb | hb
    · simp only [chunkBeats, List.mem_cons, List.not_mem_nil, or_false] at hb
      rcases hb with rfl | rfl <;> simp
    · obtain ⟨h1, h2⟩ := ih hb
      refine ⟨List.mem_cons_of_mem _ h1, ?_⟩
      simp only [List.sum_cons]
      omega

/-- What a whole copy does to `MEM` (R110). -/
theorem copyMove_read {v : VLen} {dst src size : Nat} (h : src + size ≤ dst ∨ dst + size ≤ src) (m : Memory) (x : Nat) :
    (copyMove v dst src size m).1.read x =
      if dst ≤ x ∧ x < dst + size then m.read (src + (x - dst)) else m.read x := by
  unfold copyMove
  rw [moveChunks_read (apart_of_le h) _ 0 m (by simp) x]
  simp

/-- The beats of a whole copy (R118). -/
theorem copyMove_beats {v : VLen} {dst src size : Nat} (h : src + size ≤ dst ∨ dst + size ≤ src) (m : Memory) :
    (copyMove v dst src size m).2 = plannedBeats m dst src 0 (schedule (widthsPresent v) size) :=
  moveChunks_beats (apart_of_le h) _ 0 m m (by simp) (fun _ _ _ => rfl)

/-! ### The staging register -/

/-- A lane gives back the byte that was put there (20_memory.md R34). -/
theorem stagingLane_stagingWord (vs : List Byte) {k : Nat} (hk : k < vs.length) :
    stagingLane (stagingWord vs) k = vs[k] := by
  induction vs generalizing k with
  | nil => simp at hk
  | cons v vs ih =>
    have hv : v.toNat < 2 ^ 8 := v.isLt
    cases k with
    | zero =>
      apply BitVec.eq_of_toNat_eq
      simp only [stagingLane, stagingWord, BitVec.toNat_ofNat, Nat.mul_zero, Nat.pow_zero, Nat.div_one,
        List.getElem_cons_zero]
      omega
    | succ k =>
      have h : (v.toNat + 2 ^ 8 * stagingWord vs) / 2 ^ (8 * (k + 1)) = stagingWord vs / 2 ^ (8 * k) := by
        rw [Nat.mul_succ, Nat.pow_add, Nat.mul_comm (2 ^ (8 * k)), ← Nat.div_div_eq_div_mul]
        congr 1
        omega
      rw [List.getElem_cons_succ, ← ih (by simpa using hk)]
      simp only [stagingLane, stagingWord, h]

/-- What a write beat stores is what the read beat of its chunk filled in. -/
@[simp] theorem stagingLanes_stagingWord (vs : List Byte) : stagingLanes (stagingWord vs) vs.length = vs := by
  refine List.ext_getElem (by simp [stagingLanes]) fun k h₁ h₂ => ?_
  simp [stagingLanes, stagingLane_stagingWord vs h₂]

/-- A transition of the datapath that moves a chunk (43_tiered_copy.md R124). -/
theorem datapathTick_move {dst src w : Nat} {d : Datapath} (hw : tierWidth d.tier = some w) (hr : w ≤ d.rem) :
    datapathTick dst src d =
      { tier := d.tier
        off := d.off + w
        rem := d.rem - w
        staging := stagingWord (d.mem.readBytes (src + d.off) w)
        mem := d.mem.writeBytes (dst + d.off) (d.mem.readBytes (src + d.off) w)
        beats := d.beats ++ chunkBeats (src + d.off) (dst + d.off) (d.mem.readBytes (src + d.off) w) } := by
  have h : stagingLanes (stagingWord (d.mem.readBytes (src + d.off) w)) w = d.mem.readBytes (src + d.off) w := by
    simpa using stagingLanes_stagingWord (d.mem.readBytes (src + d.off) w)
  simp only [datapathTick, hw, if_pos hr, h]

/-- A transition of the datapath to the next narrower width. -/
theorem datapathTick_narrow {dst src w : Nat} {d : Datapath} (hw : tierWidth d.tier = some w) (hr : d.rem < w) :
    datapathTick dst src d = { d with tier := tierNext d.tier } := by
  simp only [datapathTick, hw, if_neg (Nat.not_le.2 hr)]

/-! ### The checks of `COPY` -/

theorem copyInBounds_iff (c : Config) (dst src size : Nat) :
    copyInBounds c dst src size = true ↔ src + size ≤ c.memBytes ∧ dst + size ≤ c.memBytes := by
  simp [copyInBounds, regionInside]

theorem regionsOverlap_iff (dst src size : Nat) :
    regionsOverlap dst src size = true ↔ dst < src + size ∧ src < dst + size := by
  simp [regionsOverlap]

theorem copyMoves_iff (c : Config) (dst src size : Nat) :
    copyMoves c dst src size = true ↔
      size ≠ 0 ∧ (src + size ≤ c.memBytes ∧ dst + size ≤ c.memBytes) ∧ ¬ (dst < src + size ∧ src < dst + size) := by
  simp [copyMoves, copyInBounds_iff, ← regionsOverlap_iff, and_assoc]

/-- Every beat of a copy inside `MEM` is legal. -/
theorem copyMove_beat_legal {c : Config} {dst src size : Nat} {m : Memory} {b : Beat}
    (h : src + size ≤ c.memBytes ∧ dst + size ≤ c.memBytes) (hb : b ∈ (copyMove c.vlen dst src size m).2) :
    beatLegal c b := by
  have hb' := moveChunks_beat_mem hb
  simp only [schedule_widthsPresent_sum] at hb'
  exact ⟨mem_of_mem_schedule hb'.1, by omega⟩

/-! ### A copy cut short -/

theorem copyLanded_read {dst src size : Nat} (m : Memory) (ks : List Nat) (x : Nat) :
    (copyLanded dst src size m ks).read x =
      if dst ≤ x ∧ x < dst + size ∧ x - dst ∈ ks then m.read (src + (x - dst)) else m.read x := by
  induction ks with
  | nil => simp [copyLanded]
  | cons k ks ih =>
    simp only [copyLanded]
    split
    · rename_i hk
      rw [Memory.read_write]
      by_cases hx : x = dst + k
      · subst hx
        simp [hk]
      · rw [if_neg hx, ih]
        by_cases hc : dst ≤ x ∧ x < dst + size ∧ x - dst ∈ ks
        · rw [if_pos hc, if_pos ⟨hc.1, hc.2.1, List.mem_cons_of_mem _ hc.2.2⟩]
        · rw [if_neg hc, if_neg]
          rintro ⟨h1, h2, h3⟩
          rcases List.mem_cons.1 h3 with h3 | h3
          · omega
          · exact hc ⟨h1, h2, h3⟩
    · rename_i hk
      rw [ih]
      by_cases hc : dst ≤ x ∧ x < dst + size ∧ x - dst ∈ ks
      · rw [if_pos hc, if_pos ⟨hc.1, hc.2.1, List.mem_cons_of_mem _ hc.2.2⟩]
      · rw [if_neg hc, if_neg]
        rintro ⟨h1, h2, h3⟩
        rcases List.mem_cons.1 h3 with h3 | h3
        · omega
        · exact hc ⟨h1, h2, h3⟩

theorem copyLanded_wf {m : Memory} (h : m.wf) (dst src size : Nat) (ks : List Nat) :
    (copyLanded dst src size m ks).wf := by
  induction ks with
  | nil => exact h
  | cons k ks ih =>
    simp only [copyLanded]
    split
    · exact Memory.write_wf ih _ _
    · exact ih

theorem copyLanded_inside {m : Memory} {n : Nat} (h : m.inside n) {dst size : Nat} (hn : dst + size ≤ n)
    (src : Nat) (ks : List Nat) : (copyLanded dst src size m ks).inside n := by
  induction ks with
  | nil => exact h
  | cons k ks ih =>
    simp only [copyLanded]
    split
    · exact Memory.write_inside ih (by omega) _
    · exact ih

end Sys2Proof.Machine
end

