-- ==== Sys2Proof/Laws/Decode.lean ====
section
/-! SUPPORT. The laws of the command word and of the decoder, on command records. -/

namespace Sys2Proof

/-! ### Fields of a number -/

/-- The command record is read back from its word (30_encoding.md R50). -/
theorem Command.ofWord_toWord {x : XLen} {k : Command} (h : k.wf x = true) :
    Command.ofWord x (k.toWord x) = k := by
  obtain ⟨op, a, b, c⟩ := k
  simp only [Command.wf, Bool.and_eq_true, Word.fits_iff] at h
  obtain ⟨⟨ha, hb⟩, hc⟩ := h
  have hop := op.isLt
  have h0 : BitVec.ofNat 8 op.toNat = op := by simp
  cases x <;> simp only [XLen.bits] at ha hb hc <;>
    simp only [Command.ofWord, Command.toWord, bitField, XLen.bits, Command.mk.injEq] <;>
    refine ⟨?_, ?_, ?_, ?_⟩ <;> first | omega | (rw [← h0]; congr 1; simp; omega)

/-- A command word of the port's width is the word of its record (R50). -/
theorem Command.toWord_ofWord {x : XLen} {w : Nat} (h : w < 2 ^ commandBits x) :
    (Command.ofWord x w).toWord x = w := by
  cases x <;> simp only [commandBits, XLen.bits] at h <;>
    simp only [Command.ofWord, Command.toWord, bitField, XLen.bits, BitVec.toNat_ofNat] <;> omega

/-- The fields read from any word fit. -/
theorem Command.wf_ofWord (x : XLen) (w : Nat) : (Command.ofWord x w).wf x = true := by
  simp only [Command.wf, Bool.and_eq_true, Word.fits_iff, Command.ofWord, bitField]
  exact ⟨⟨Nat.mod_lt _ (by positivity), Nat.mod_lt _ (by positivity)⟩, Nat.mod_lt _ (by positivity)⟩

/-- The word of a well-formed record has the port's width. -/
theorem Command.toWord_lt {x : XLen} {k : Command} (h : k.wf x = true) : k.toWord x < 2 ^ commandBits x := by
  obtain ⟨op, a, b, c⟩ := k
  simp only [Command.wf, Bool.and_eq_true, Word.fits_iff] at h
  obtain ⟨⟨ha, hb⟩, hc⟩ := h
  have hop := op.isLt
  cases x <;> simp only [XLen.bits] at ha hb hc <;>
    simp only [Command.toWord, commandBits, XLen.bits] <;> omega

/-! ### The opcode map -/

theorem Opcode.ofCode_code (o : Opcode) : Opcode.ofCode o.code = some o := by
  cases o <;> decide

theorem Opcode.code_of_ofCode {op : Byte} {o : Opcode} (h : Opcode.ofCode op = some o) : o.code = op := by
  have := List.find?_some h
  simpa using this

theorem Opcode.mem_opcodeMap (o : Opcode) : o ∈ opcodeMap := by
  cases o <;> decide

theorem Opcode.ofCode_eq_none {op : Byte} : Opcode.ofCode op = none ↔ ∀ o : Opcode, o.code ≠ op := by
  unfold Opcode.ofCode
  rw [List.find?_eq_none]
  constructor
  · intro h o ho
    exact h o (Opcode.mem_opcodeMap o) (by simp [ho])
  · intro h o _ ho
    exact h o (by simpa using ho)

/-! ### The decoder on records -/

/-- When the decoder accepts a record, and with what. -/
theorem decodeCommand_ok {k : Command} {i : Instr} :
    decodeCommand k = .ok i ↔ ∃ o : Opcode, o.code = k.op ∧ o.format.accepts k = true ∧ o.instr k = i := by
  unfold decodeCommand
  constructor
  · intro h
    split at h
    · cases h
    · rename_i o ho
      split at h
      · rename_i hacc
        exact ⟨o, Opcode.code_of_ofCode ho, hacc, by simpa using h⟩
      · cases h
  · rintro ⟨o, hop, hacc, rfl⟩
    rw [← hop, Opcode.ofCode_code]
    simp [hacc]

/-- The opcode of an accepted record. -/
theorem opcode_of_decodeCommand {k : Command} {i : Instr} (h : decodeCommand k = .ok i) : i.opcode.code = k.op := by
  obtain ⟨o, hop, -, rfl⟩ := decodeCommand_ok.1 h
  rw [← hop]
  cases o <;> rfl

/-- An accepted record is the record of its instruction: nothing of it is dropped (R54). -/
theorem command_of_decodeCommand {k : Command} {i : Instr} (h : decodeCommand k = .ok i) : i.command = k := by
  obtain ⟨o, hop, hacc, rfl⟩ := decodeCommand_ok.1 h
  obtain ⟨op, a, b, c⟩ := k
  simp only at hop
  cases o <;>
    simp only [Opcode.format, Format.accepts, Bool.and_eq_true, beq_iff_eq] at hacc <;>
    simp_all [Opcode.instr, Instr.command, Instr.opcode]

/-- The operands of a well-formed instruction fit their fields. -/
theorem Instr.command_wf {x : XLen} {i : Instr} (h : i.wf x = true) : i.command.wf x = true := by
  have h0 : Word.fits x.bits 0 = true := (Word.fits_iff _ _).2 (by positivity)
  cases i <;> simp_all [Instr.wf, Instr.command, Command.wf]

/-- An instruction whose record fits is well-formed. -/
theorem Instr.wf_of_command {x : XLen} {i : Instr} (h : i.command.wf x = true) : i.wf x = true := by
  cases i <;> simp_all [Instr.wf, Instr.command, Command.wf]

/-- A decoded instruction is well-formed. -/
theorem wf_of_decode {x : XLen} {w : Nat} {i : Instr} (h : decode x w = .ok i) : i.wf x = true :=
  Instr.wf_of_command (command_of_decodeCommand h ▸ Command.wf_ofWord x w)

/-- The first field of a decoded word is the operand an instruction's fault response names. -/
theorem a_of_decode {x : XLen} {w : Nat} {i : Instr} (h : decode x w = .ok i) :
    i.command.a = w / 2 ^ 8 % 2 ^ x.bits := by
  rw [command_of_decodeCommand h]
  rfl

/-- The opcode field of a decoded word is its instruction's opcode. -/
theorem op_of_decode {x : XLen} {w : Nat} {i : Instr} (h : decode x w = .ok i) :
    i.opcode.code = BitVec.ofNat 8 (w % 256) := by
  rw [opcode_of_decodeCommand h]
  simp [Command.ofWord, bitField]

end Sys2Proof
end

