-- ==== Sys2Proof/Laws/State.lean ====
section
/-! SUPPORT. One lemma for each field of `State` and each update of it, so that no proof unfolds a record update. -/

namespace Sys2Proof.Machine

/-! ### `State.setRing` -/

@[simp] theorem State.cfg_setRing (s : State) (v : Bool) (c h t : Nat) : (s.setRing v c h t).cfg = s.cfg := rfl
@[simp] theorem State.valid_setRing (s : State) (v : Bool) (c h t : Nat) : (s.setRing v c h t).valid = v := rfl
@[simp] theorem State.cap_setRing (s : State) (v : Bool) (c h t : Nat) : (s.setRing v c h t).cap = c := rfl
@[simp] theorem State.head_setRing (s : State) (v : Bool) (c h t : Nat) : (s.setRing v c h t).head = h := rfl
@[simp] theorem State.tail_setRing (s : State) (v : Bool) (c h t : Nat) : (s.setRing v c h t).tail = t := rfl
@[simp] theorem State.err_setRing (s : State) (v : Bool) (c h t : Nat) : (s.setRing v c h t).err = s.err := rfl
@[simp] theorem State.mem_setRing (s : State) (v : Bool) (c h t : Nat) : (s.setRing v c h t).mem = s.mem := rfl
@[simp] theorem State.inputs_setRing (s : State) (v : Bool) (c h t : Nat) : (s.setRing v c h t).inputs = s.inputs := rfl
@[simp] theorem State.responses_setRing (s : State) (v : Bool) (c h t : Nat) : (s.setRing v c h t).responses = s.responses := rfl
@[simp] theorem State.beats_setRing (s : State) (v : Bool) (c h t : Nat) : (s.setRing v c h t).beats = s.beats := rfl
@[simp] theorem State.hostReads_setRing (s : State) (v : Bool) (c h t : Nat) : (s.setRing v c h t).hostReads = s.hostReads := rfl

/-! ### `State.setHead` -/

@[simp] theorem State.cfg_setHead (s : State) (p : Nat) : (s.setHead p).cfg = s.cfg := rfl
@[simp] theorem State.valid_setHead (s : State) (p : Nat) : (s.setHead p).valid = s.valid := rfl
@[simp] theorem State.cap_setHead (s : State) (p : Nat) : (s.setHead p).cap = s.cap := rfl
@[simp] theorem State.head_setHead (s : State) (p : Nat) : (s.setHead p).head = p := rfl
@[simp] theorem State.tail_setHead (s : State) (p : Nat) : (s.setHead p).tail = s.tail := rfl
@[simp] theorem State.err_setHead (s : State) (p : Nat) : (s.setHead p).err = s.err := rfl
@[simp] theorem State.mem_setHead (s : State) (p : Nat) : (s.setHead p).mem = s.mem := rfl
@[simp] theorem State.inputs_setHead (s : State) (p : Nat) : (s.setHead p).inputs = s.inputs := rfl
@[simp] theorem State.responses_setHead (s : State) (p : Nat) : (s.setHead p).responses = s.responses := rfl
@[simp] theorem State.beats_setHead (s : State) (p : Nat) : (s.setHead p).beats = s.beats := rfl
@[simp] theorem State.hostReads_setHead (s : State) (p : Nat) : (s.setHead p).hostReads = s.hostReads := rfl

/-! ### `State.setTail` -/

@[simp] theorem State.cfg_setTail (s : State) (p : Nat) : (s.setTail p).cfg = s.cfg := rfl
@[simp] theorem State.valid_setTail (s : State) (p : Nat) : (s.setTail p).valid = s.valid := rfl
@[simp] theorem State.cap_setTail (s : State) (p : Nat) : (s.setTail p).cap = s.cap := rfl
@[simp] theorem State.head_setTail (s : State) (p : Nat) : (s.setTail p).head = s.head := rfl
@[simp] theorem State.tail_setTail (s : State) (p : Nat) : (s.setTail p).tail = p := rfl
@[simp] theorem State.err_setTail (s : State) (p : Nat) : (s.setTail p).err = s.err := rfl
@[simp] theorem State.mem_setTail (s : State) (p : Nat) : (s.setTail p).mem = s.mem := rfl
@[simp] theorem State.inputs_setTail (s : State) (p : Nat) : (s.setTail p).inputs = s.inputs := rfl
@[simp] theorem State.responses_setTail (s : State) (p : Nat) : (s.setTail p).responses = s.responses := rfl
@[simp] theorem State.beats_setTail (s : State) (p : Nat) : (s.setTail p).beats = s.beats := rfl
@[simp] theorem State.hostReads_setTail (s : State) (p : Nat) : (s.setTail p).hostReads = s.hostReads := rfl

/-! ### `State.setMem` -/

@[simp] theorem State.cfg_setMem (s : State) (m : Memory) : (s.setMem m).cfg = s.cfg := rfl
@[simp] theorem State.valid_setMem (s : State) (m : Memory) : (s.setMem m).valid = s.valid := rfl
@[simp] theorem State.cap_setMem (s : State) (m : Memory) : (s.setMem m).cap = s.cap := rfl
@[simp] theorem State.head_setMem (s : State) (m : Memory) : (s.setMem m).head = s.head := rfl
@[simp] theorem State.tail_setMem (s : State) (m : Memory) : (s.setMem m).tail = s.tail := rfl
@[simp] theorem State.err_setMem (s : State) (m : Memory) : (s.setMem m).err = s.err := rfl
@[simp] theorem State.mem_setMem (s : State) (m : Memory) : (s.setMem m).mem = m := rfl
@[simp] theorem State.inputs_setMem (s : State) (m : Memory) : (s.setMem m).inputs = s.inputs := rfl
@[simp] theorem State.responses_setMem (s : State) (m : Memory) : (s.setMem m).responses = s.responses := rfl
@[simp] theorem State.beats_setMem (s : State) (m : Memory) : (s.setMem m).beats = s.beats := rfl
@[simp] theorem State.hostReads_setMem (s : State) (m : Memory) : (s.setMem m).hostReads = s.hostReads := rfl

/-! ### `State.recordBeats` -/

@[simp] theorem State.cfg_recordBeats (s : State) (bs : List Beat) : (s.recordBeats bs).cfg = s.cfg := rfl
@[simp] theorem State.valid_recordBeats (s : State) (bs : List Beat) : (s.recordBeats bs).valid = s.valid := rfl
@[simp] theorem State.cap_recordBeats (s : State) (bs : List Beat) : (s.recordBeats bs).cap = s.cap := rfl
@[simp] theorem State.head_recordBeats (s : State) (bs : List Beat) : (s.recordBeats bs).head = s.head := rfl
@[simp] theorem State.tail_recordBeats (s : State) (bs : List Beat) : (s.recordBeats bs).tail = s.tail := rfl
@[simp] theorem State.err_recordBeats (s : State) (bs : List Beat) : (s.recordBeats bs).err = s.err := rfl
@[simp] theorem State.mem_recordBeats (s : State) (bs : List Beat) : (s.recordBeats bs).mem = s.mem := rfl
@[simp] theorem State.inputs_recordBeats (s : State) (bs : List Beat) : (s.recordBeats bs).inputs = s.inputs := rfl
@[simp] theorem State.responses_recordBeats (s : State) (bs : List Beat) : (s.recordBeats bs).responses = s.responses := rfl
@[simp] theorem State.beats_recordBeats (s : State) (bs : List Beat) : (s.recordBeats bs).beats = s.beats ++ bs := rfl
@[simp] theorem State.hostReads_recordBeats (s : State) (bs : List Beat) : (s.recordBeats bs).hostReads = s.hostReads := rfl

/-! ### `State.setInputs` -/

@[simp] theorem State.cfg_setInputs (s : State) (is : List Input) : (s.setInputs is).cfg = s.cfg := rfl
@[simp] theorem State.valid_setInputs (s : State) (is : List Input) : (s.setInputs is).valid = s.valid := rfl
@[simp] theorem State.cap_setInputs (s : State) (is : List Input) : (s.setInputs is).cap = s.cap := rfl
@[simp] theorem State.head_setInputs (s : State) (is : List Input) : (s.setInputs is).head = s.head := rfl
@[simp] theorem State.tail_setInputs (s : State) (is : List Input) : (s.setInputs is).tail = s.tail := rfl
@[simp] theorem State.err_setInputs (s : State) (is : List Input) : (s.setInputs is).err = s.err := rfl
@[simp] theorem State.mem_setInputs (s : State) (is : List Input) : (s.setInputs is).mem = s.mem := rfl
@[simp] theorem State.inputs_setInputs (s : State) (is : List Input) : (s.setInputs is).inputs = is := rfl
@[simp] theorem State.responses_setInputs (s : State) (is : List Input) : (s.setInputs is).responses = s.responses := rfl
@[simp] theorem State.beats_setInputs (s : State) (is : List Input) : (s.setInputs is).beats = s.beats := rfl
@[simp] theorem State.hostReads_setInputs (s : State) (is : List Input) : (s.setInputs is).hostReads = s.hostReads := rfl

/-! ### `State.recordHostRead` -/

@[simp] theorem State.cfg_recordHostRead (s : State) (a : Nat) (v : Byte) : (s.recordHostRead a v).cfg = s.cfg := rfl
@[simp] theorem State.valid_recordHostRead (s : State) (a : Nat) (v : Byte) : (s.recordHostRead a v).valid = s.valid := rfl
@[simp] theorem State.cap_recordHostRead (s : State) (a : Nat) (v : Byte) : (s.recordHostRead a v).cap = s.cap := rfl
@[simp] theorem State.head_recordHostRead (s : State) (a : Nat) (v : Byte) : (s.recordHostRead a v).head = s.head := rfl
@[simp] theorem State.tail_recordHostRead (s : State) (a : Nat) (v : Byte) : (s.recordHostRead a v).tail = s.tail := rfl
@[simp] theorem State.err_recordHostRead (s : State) (a : Nat) (v : Byte) : (s.recordHostRead a v).err = s.err := rfl
@[simp] theorem State.mem_recordHostRead (s : State) (a : Nat) (v : Byte) : (s.recordHostRead a v).mem = s.mem := rfl
@[simp] theorem State.inputs_recordHostRead (s : State) (a : Nat) (v : Byte) : (s.recordHostRead a v).inputs = s.inputs := rfl
@[simp] theorem State.responses_recordHostRead (s : State) (a : Nat) (v : Byte) : (s.recordHostRead a v).responses = s.responses := rfl
@[simp] theorem State.beats_recordHostRead (s : State) (a : Nat) (v : Byte) : (s.recordHostRead a v).beats = s.beats := rfl
@[simp] theorem State.hostReads_recordHostRead (s : State) (a : Nat) (v : Byte) : (s.recordHostRead a v).hostReads = s.hostReads ++ [(a, v)] := rfl

/-! ### `State.recordHostReads` -/

@[simp] theorem State.cfg_recordHostReads (s : State) (ps : List Host.Cell) : (s.recordHostReads ps).cfg = s.cfg := rfl
@[simp] theorem State.valid_recordHostReads (s : State) (ps : List Host.Cell) : (s.recordHostReads ps).valid = s.valid := rfl
@[simp] theorem State.cap_recordHostReads (s : State) (ps : List Host.Cell) : (s.recordHostReads ps).cap = s.cap := rfl
@[simp] theorem State.head_recordHostReads (s : State) (ps : List Host.Cell) : (s.recordHostReads ps).head = s.head := rfl
@[simp] theorem State.tail_recordHostReads (s : State) (ps : List Host.Cell) : (s.recordHostReads ps).tail = s.tail := rfl
@[simp] theorem State.err_recordHostReads (s : State) (ps : List Host.Cell) : (s.recordHostReads ps).err = s.err := rfl
@[simp] theorem State.mem_recordHostReads (s : State) (ps : List Host.Cell) : (s.recordHostReads ps).mem = s.mem := rfl
@[simp] theorem State.inputs_recordHostReads (s : State) (ps : List Host.Cell) : (s.recordHostReads ps).inputs = s.inputs := rfl
@[simp] theorem State.responses_recordHostReads (s : State) (ps : List Host.Cell) : (s.recordHostReads ps).responses = s.responses := rfl
@[simp] theorem State.beats_recordHostReads (s : State) (ps : List Host.Cell) : (s.recordHostReads ps).beats = s.beats := rfl
@[simp] theorem State.hostReads_recordHostReads (s : State) (ps : List Host.Cell) : (s.recordHostReads ps).hostReads = s.hostReads ++ ps := rfl

/-! ### `State.respond` -/

@[simp] theorem State.cfg_respond (s : State) (op : Byte) (v : Nat) : (s.respond op v).cfg = s.cfg := rfl
@[simp] theorem State.valid_respond (s : State) (op : Byte) (v : Nat) : (s.respond op v).valid = s.valid := rfl
@[simp] theorem State.cap_respond (s : State) (op : Byte) (v : Nat) : (s.respond op v).cap = s.cap := rfl
@[simp] theorem State.head_respond (s : State) (op : Byte) (v : Nat) : (s.respond op v).head = s.head := rfl
@[simp] theorem State.tail_respond (s : State) (op : Byte) (v : Nat) : (s.respond op v).tail = s.tail := rfl
@[simp] theorem State.err_respond (s : State) (op : Byte) (v : Nat) : (s.respond op v).err = s.err := rfl
@[simp] theorem State.mem_respond (s : State) (op : Byte) (v : Nat) : (s.respond op v).mem = s.mem := rfl
@[simp] theorem State.inputs_respond (s : State) (op : Byte) (v : Nat) : (s.respond op v).inputs = s.inputs := rfl
@[simp] theorem State.responses_respond (s : State) (op : Byte) (v : Nat) : (s.respond op v).responses = s.responses ++ [{ op := op, status := statusOk, value := v }] := rfl
@[simp] theorem State.beats_respond (s : State) (op : Byte) (v : Nat) : (s.respond op v).beats = s.beats := rfl
@[simp] theorem State.hostReads_respond (s : State) (op : Byte) (v : Nat) : (s.respond op v).hostReads = s.hostReads := rfl

/-! ### `State.raise` -/

@[simp] theorem State.cfg_raise (s : State) (op : Byte) (f : FaultCode) (a : Nat) : (s.raise op f a).cfg = s.cfg := rfl
@[simp] theorem State.valid_raise (s : State) (op : Byte) (f : FaultCode) (a : Nat) : (s.raise op f a).valid = s.valid := rfl
@[simp] theorem State.cap_raise (s : State) (op : Byte) (f : FaultCode) (a : Nat) : (s.raise op f a).cap = s.cap := rfl
@[simp] theorem State.head_raise (s : State) (op : Byte) (f : FaultCode) (a : Nat) : (s.raise op f a).head = s.head := rfl
@[simp] theorem State.tail_raise (s : State) (op : Byte) (f : FaultCode) (a : Nat) : (s.raise op f a).tail = s.tail := rfl
@[simp] theorem State.err_raise (s : State) (op : Byte) (f : FaultCode) (a : Nat) : (s.raise op f a).err = errAfter s.err (faultCode f) := rfl
@[simp] theorem State.mem_raise (s : State) (op : Byte) (f : FaultCode) (a : Nat) : (s.raise op f a).mem = s.mem := rfl
@[simp] theorem State.inputs_raise (s : State) (op : Byte) (f : FaultCode) (a : Nat) : (s.raise op f a).inputs = s.inputs := rfl
@[simp] theorem State.responses_raise (s : State) (op : Byte) (f : FaultCode) (a : Nat) : (s.raise op f a).responses = s.responses ++ [{ op := op, status := faultCode f, value := a }] := rfl
@[simp] theorem State.beats_raise (s : State) (op : Byte) (f : FaultCode) (a : Nat) : (s.raise op f a).beats = s.beats := rfl
@[simp] theorem State.hostReads_raise (s : State) (op : Byte) (f : FaultCode) (a : Nat) : (s.raise op f a).hostReads = s.hostReads := rfl

/-! ### `State.resetRegisters` -/

@[simp] theorem State.cfg_resetRegisters (s : State) : s.resetRegisters.cfg = s.cfg := rfl
@[simp] theorem State.valid_resetRegisters (s : State) : s.resetRegisters.valid = false := rfl
@[simp] theorem State.cap_resetRegisters (s : State) : s.resetRegisters.cap = 0 := rfl
@[simp] theorem State.head_resetRegisters (s : State) : s.resetRegisters.head = 0 := rfl
@[simp] theorem State.tail_resetRegisters (s : State) : s.resetRegisters.tail = 0 := rfl
@[simp] theorem State.err_resetRegisters (s : State) : s.resetRegisters.err = 0x00 := rfl
@[simp] theorem State.mem_resetRegisters (s : State) : s.resetRegisters.mem = s.mem := rfl
@[simp] theorem State.inputs_resetRegisters (s : State) : s.resetRegisters.inputs = s.inputs := rfl
@[simp] theorem State.responses_resetRegisters (s : State) : s.resetRegisters.responses = s.responses := rfl
@[simp] theorem State.beats_resetRegisters (s : State) : s.resetRegisters.beats = s.beats := rfl
@[simp] theorem State.hostReads_resetRegisters (s : State) : s.resetRegisters.hostReads = s.hostReads := rfl

/-! ### `State.launch` -/

@[simp] theorem State.cfg_launch (c : Config) (m : Memory) : (State.launch c m).cfg = c := rfl
@[simp] theorem State.valid_launch (c : Config) (m : Memory) : (State.launch c m).valid = false := rfl
@[simp] theorem State.cap_launch (c : Config) (m : Memory) : (State.launch c m).cap = 0 := rfl
@[simp] theorem State.head_launch (c : Config) (m : Memory) : (State.launch c m).head = 0 := rfl
@[simp] theorem State.tail_launch (c : Config) (m : Memory) : (State.launch c m).tail = 0 := rfl
@[simp] theorem State.err_launch (c : Config) (m : Memory) : (State.launch c m).err = 0x00 := rfl
@[simp] theorem State.mem_launch (c : Config) (m : Memory) : (State.launch c m).mem = m := rfl
@[simp] theorem State.inputs_launch (c : Config) (m : Memory) : (State.launch c m).inputs = [] := rfl
@[simp] theorem State.responses_launch (c : Config) (m : Memory) : (State.launch c m).responses = [] := rfl
@[simp] theorem State.beats_launch (c : Config) (m : Memory) : (State.launch c m).beats = [] := rfl
@[simp] theorem State.hostReads_launch (c : Config) (m : Memory) : (State.launch c m).hostReads = [] := rfl

/-! ### The derived quantities see `CAP`, `HEAD` and `TAIL` alone -/

/-- States with equal `CAP`, `HEAD` and `TAIL` have equal `filled`. -/
theorem State.filled_congr (s t : State) (hc : t.cap = s.cap) (hh : t.head = s.head) (ht : t.tail = s.tail) :
    t.filled = s.filled := by
  simp [State.filled, hc, hh, ht]

/-- States with equal `CAP`, `HEAD` and `TAIL` have equal `free`. -/
theorem State.free_congr (s t : State) (hc : t.cap = s.cap) (hh : t.head = s.head) (ht : t.tail = s.tail) :
    t.free = s.free := by
  simp [State.free, State.filled_congr s t hc hh ht, hc]

/-- `wrap` depends on `CAP` alone. -/
theorem State.wrap_congr (s t : State) (hc : t.cap = s.cap) (p k : Nat) : t.wrap p k = s.wrap p k := by
  simp [State.wrap, hc]

end Sys2Proof.Machine
end

