-- ==== Sys2Proof/Laws/Exec.lean ====
section
/-! SUPPORT. What a command can do, said once: it raises one fault, or it has its own effect and answers `OK`. Every
later proof about all commands cites `exec_cases` instead of unfolding the meanings. -/

namespace Sys2Proof.Machine

/-- When the command `i` faults in `s`, and with what (60_exceptions.md R130, R132). -/
def Raises (s : State) (i : Instr) (f : FaultCode) : Prop :=
  match i with
  | .construct n =>
    (s.valid = true ∧ f = .eAlreadyConstructed) ∨ (s.valid = false ∧ n = 0 ∧ f = .eConfig) ∨
      (s.valid = false ∧ n ≠ 0 ∧ s.cfg.storageBytes < n ∧ f = .eResource)
  | .destroy => s.valid = false ∧ f = .eNotConstructed
  | .status => False
  | .isEmpty => s.valid = false ∧ f = .eNotConstructed
  | .filled => s.valid = false ∧ f = .eNotConstructed
  | .free => s.valid = false ∧ f = .eNotConstructed
  | .capacity => s.valid = false ∧ f = .eNotConstructed
  | .headToEnd => s.valid = false ∧ f = .eNotConstructed
  | .tailToEnd => s.valid = false ∧ f = .eNotConstructed
  | .nextHead _ => s.valid = false ∧ f = .eNotConstructed
  | .nextTail _ => s.valid = false ∧ f = .eNotConstructed
  | .advHead n =>
    (s.valid = false ∧ f = .eNotConstructed) ∨ (s.valid = true ∧ s.free ≤ n ∧ f = .eOverrun)
  | .advTail n =>
    (s.valid = false ∧ f = .eNotConstructed) ∨ (s.valid = true ∧ s.filled < n ∧ f = .eUnderrun)
  | .copy dst src size =>
    (size ≠ 0 ∧ ¬ (src + size ≤ s.cfg.memBytes ∧ dst + size ≤ s.cfg.memBytes) ∧ f = .eBounds) ∨
      (size ≠ 0 ∧ (src + size ≤ s.cfg.memBytes ∧ dst + size ≤ s.cfg.memBytes) ∧
        (dst < src + size ∧ src < dst + size) ∧ f = .eAlias)

/-- When the command `i` succeeds in `s`: the state `u` it makes, before its answer `v` is given. -/
def Succeeds (s : State) (i : Instr) (u : State) (v : Nat) : Prop :=
  match i with
  | .construct n =>
    s.valid = false ∧ n ≠ 0 ∧ n ≤ s.cfg.storageBytes ∧ u = s.setRing true n 0 0 ∧ v = n
  | .destroy => s.valid = true ∧ u = s.setRing false 0 0 0 ∧ v = 0
  | .status => u = s ∧ v = statusWord s.valid s.err
  | .isEmpty => s.valid = true ∧ u = s ∧ v = boolWord s.isEmpty
  | .filled => s.valid = true ∧ u = s ∧ v = s.filled
  | .free => s.valid = true ∧ u = s ∧ v = s.free
  | .capacity => s.valid = true ∧ u = s ∧ v = s.cap
  | .headToEnd => s.valid = true ∧ u = s ∧ v = s.headToEnd
  | .tailToEnd => s.valid = true ∧ u = s ∧ v = s.tailToEnd
  | .nextHead k => s.valid = true ∧ u = s ∧ v = s.wrap s.head k
  | .nextTail k => s.valid = true ∧ u = s ∧ v = s.wrap s.tail k
  | .advHead n => s.valid = true ∧ n < s.free ∧ u = s.setHead (s.wrap s.head n) ∧ v = s.wrap s.head n
  | .advTail n => s.valid = true ∧ n ≤ s.filled ∧ u = s.setTail (s.wrap s.tail n) ∧ v = s.wrap s.tail n
  | .copy dst src size =>
    (size = 0 ∧ u = s ∧ v = dst) ∨
      (size ≠ 0 ∧ (src + size ≤ s.cfg.memBytes ∧ dst + size ≤ s.cfg.memBytes) ∧
        ¬ (dst < src + size ∧ src < dst + size) ∧
        u = (s.setMem (copyMove s.cfg.vlen dst src size s.mem).1).recordBeats
          (copyMove s.cfg.vlen dst src size s.mem).2 ∧ v = dst)

/-- The state check, once. -/
theorem requireRing_cases (s : State) (op : Byte) (a : Nat) (t : State) :
    (s.valid = true ∧ s.requireRing op a t = t) ∨
      (s.valid = false ∧ s.requireRing op a t = s.raise op .eNotConstructed a) := by
  unfold State.requireRing
  cases s.valid <;> simp

theorem execCopy_cases (dst src size : Nat) (s : State) :
    (∃ f, Raises s (.copy dst src size) f ∧ execCopy dst src size s = .next (s.raise Opcode.copy.code f dst)) ∨
    (∃ u v, Succeeds s (.copy dst src size) u v ∧ execCopy dst src size s = .next (u.respond Opcode.copy.code v)) := by
  unfold execCopy
  split
  · rename_i h0
    exact .inr ⟨s, dst, .inl ⟨h0, rfl, rfl⟩, rfl⟩
  · rename_i h0
    split
    · rename_i hb
      refine .inl ⟨.eBounds, .inl ⟨h0, ?_, rfl⟩, rfl⟩
      rw [← copyInBounds_iff, hb]
      exact Bool.false_ne_true
    · rename_i hb
      have hb' := (copyInBounds_iff _ _ _ _).1 (by simpa using hb)
      split
      · rename_i ho
        exact .inl ⟨.eAlias, .inr ⟨h0, hb', (regionsOverlap_iff _ _ _).1 ho, rfl⟩, rfl⟩
      · rename_i ho
        exact .inr ⟨_, dst, .inr ⟨h0, hb', fun h => ho ((regionsOverlap_iff _ _ _).2 h), rfl, rfl⟩, rfl⟩

theorem execConstruct_cases (n : Nat) (s : State) :
    (∃ f, Raises s (.construct n) f ∧ execConstruct n s = .next (s.raise Opcode.construct.code f n)) ∨
    (∃ u v, Succeeds s (.construct n) u v ∧ execConstruct n s = .next (u.respond Opcode.construct.code v)) := by
  unfold execConstruct
  split
  · rename_i hv
    exact .inl ⟨_, .inl ⟨hv, rfl⟩, rfl⟩
  · rename_i hv
    have hv' : s.valid = false := by simpa using hv
    split
    · rename_i h0
      exact .inl ⟨_, .inr (.inl ⟨hv', h0, rfl⟩), rfl⟩
    · rename_i h0
      split
      · rename_i hr
        exact .inl ⟨_, .inr (.inr ⟨hv', h0, hr, rfl⟩), rfl⟩
      · rename_i hr
        exact .inr ⟨_, n, ⟨hv', h0, by omega, rfl, rfl⟩, rfl⟩

theorem execAdvHead_cases (n : Nat) (s : State) :
    (∃ f, Raises s (.advHead n) f ∧ execAdvHead n s = .next (s.raise Opcode.advHead.code f n)) ∨
    (∃ u v, Succeeds s (.advHead n) u v ∧ execAdvHead n s = .next (u.respond Opcode.advHead.code v)) := by
  unfold execAdvHead
  rcases requireRing_cases s Opcode.advHead.code n (if s.free ≤ n then s.raise Opcode.advHead.code .eOverrun n
     else (s.setHead (s.wrap s.head n)).respond Opcode.advHead.code (s.wrap s.head n)) with ⟨hv, h⟩ | ⟨hv, h⟩
  · rw [h]
    split
    · rename_i hn
      exact .inl ⟨_, .inr ⟨hv, hn, rfl⟩, rfl⟩
    · rename_i hn
      exact .inr ⟨_, _, ⟨hv, by omega, rfl, rfl⟩, rfl⟩
  · rw [h]
    exact .inl ⟨_, .inl ⟨hv, rfl⟩, rfl⟩

theorem execAdvTail_cases (n : Nat) (s : State) :
    (∃ f, Raises s (.advTail n) f ∧ execAdvTail n s = .next (s.raise Opcode.advTail.code f n)) ∨
    (∃ u v, Succeeds s (.advTail n) u v ∧ execAdvTail n s = .next (u.respond Opcode.advTail.code v)) := by
  unfold execAdvTail
  rcases requireRing_cases s Opcode.advTail.code n (if s.filled < n then s.raise Opcode.advTail.code .eUnderrun n
     else (s.setTail (s.wrap s.tail n)).respond Opcode.advTail.code (s.wrap s.tail n)) with ⟨hv, h⟩ | ⟨hv, h⟩
  · rw [h]
    split
    · rename_i hn
      exact .inl ⟨_, .inr ⟨hv, hn, rfl⟩, rfl⟩
    · rename_i hn
      exact .inr ⟨_, _, ⟨hv, by omega, rfl, rfl⟩, rfl⟩
  · rw [h]
    exact .inl ⟨_, .inl ⟨hv, rfl⟩, rfl⟩

/-- What a command can do: it raises one fault and nothing else, or it has its effect and answers. -/
theorem exec_cases (i : Instr) (s : State) :
    (∃ f, Raises s i f ∧ exec i s = .next (s.raise i.opcode.code f i.command.a)) ∨
    (∃ u v, Succeeds s i u v ∧ exec i s = .next (u.respond i.opcode.code v)) := by
  cases i with
  | construct n => exact execConstruct_cases n s
  | copy dst src size => exact execCopy_cases dst src size s
  | advHead n => exact execAdvHead_cases n s
  | advTail n => exact execAdvTail_cases n s
  | status => exact .inr ⟨_, _, ⟨rfl, rfl⟩, rfl⟩
  | _ =>
    first
      | (rcases requireRing_cases s Opcode.destroy.code 0
            ((s.setRing false 0 0 0).respond Opcode.destroy.code 0) with ⟨hv, h⟩ | ⟨hv, h⟩
         · exact .inr ⟨_, _, ⟨hv, rfl, rfl⟩, congrArg _ h⟩
         · exact .inl ⟨_, ⟨hv, rfl⟩, congrArg _ h⟩)
      | (by_cases hv : s.valid = true
         · exact .inr ⟨_, _, ⟨hv, rfl, rfl⟩, congrArg _ (if_pos hv)⟩
         · exact .inl ⟨_, ⟨by simpa using hv, rfl⟩, congrArg _ (if_neg hv)⟩)

/-- Every command answers a next state (70_reset_and_hazards.md R160). -/
theorem exec_next (i : Instr) (s : State) : ∃ t, exec i s = .next t := by
  rcases exec_cases i s with ⟨f, -, h⟩ | ⟨u, v, -, h⟩ <;> exact ⟨_, h⟩

/-- A command raises no fault where it succeeds. -/
theorem not_raises_of_succeeds {s u : State} {i : Instr} {v : Nat} {f : FaultCode} (h : Succeeds s i u v) :
    ¬ Raises s i f := by
  intro hr
  cases i <;> simp only [Succeeds, Raises] at h hr
  case construct n =>
    obtain ⟨hv, h0, hn, -, -⟩ := h
    rcases hr with ⟨h1, -⟩ | ⟨-, h1, -⟩ | ⟨-, -, h1, -⟩
    · simp [hv] at h1
    · exact h0 h1
    · omega
  case copy dst src size =>
    rcases h with ⟨h0, -, -⟩ | ⟨h0, hb, ho, -, -⟩
    · rcases hr with ⟨h1, -⟩ | ⟨h1, -⟩ <;> exact h1 h0
    · rcases hr with ⟨-, h1, -⟩ | ⟨-, -, h1, -⟩
      · exact h1 hb
      · exact ho h1
  case advHead n =>
    rcases hr with ⟨h1, -⟩ | ⟨-, h1, -⟩
    · simp [h.1] at h1
    · omega
  case advTail n =>
    rcases hr with ⟨h1, -⟩ | ⟨-, h1, -⟩
    · simp [h.1] at h1
    · omega
  all_goals first | exact hr | simp [h.1] at hr

/-- The effect of a command that succeeds is determined. -/
theorem succeeds_unique {s u u' : State} {i : Instr} {v v' : Nat} (h : Succeeds s i u v) (h' : Succeeds s i u' v') :
    u = u' ∧ v = v' := by
  cases i <;> simp only [Succeeds] at h h'
  case copy dst src size =>
    rcases h with ⟨h0, rfl, rfl⟩ | ⟨h0, -, -, rfl, rfl⟩ <;> rcases h' with ⟨h0', rfl, rfl⟩ | ⟨h0', -, -, rfl, rfl⟩
    · exact ⟨rfl, rfl⟩
    · exact absurd h0 h0'
    · exact absurd h0' h0
    · exact ⟨rfl, rfl⟩
  all_goals simp_all

/-- The fault a command raises is determined. -/
theorem raises_unique {s : State} {i : Instr} {f f' : FaultCode} (h : Raises s i f) (h' : Raises s i f') : f = f' := by
  cases i <;> simp only [Raises] at h h'
  case construct n =>
    rcases h with ⟨h1, rfl⟩ | ⟨h1, h2, rfl⟩ | ⟨h1, h2, h3, rfl⟩ <;>
      rcases h' with ⟨h1', rfl⟩ | ⟨h1', h2', rfl⟩ | ⟨h1', h2', h3', rfl⟩ <;> simp_all
  case copy dst src size =>
    rcases h with ⟨h1, h2, rfl⟩ | ⟨h1, h2, h3, rfl⟩ <;>
      rcases h' with ⟨h1', h2', rfl⟩ | ⟨h1', h2', h3', rfl⟩ <;> simp_all
  case advHead n =>
    rcases h with ⟨h1, rfl⟩ | ⟨h1, h2, rfl⟩ <;> rcases h' with ⟨h1', rfl⟩ | ⟨h1', h2', rfl⟩ <;> simp_all
  case advTail n =>
    rcases h with ⟨h1, rfl⟩ | ⟨h1, h2, rfl⟩ <;> rcases h' with ⟨h1', rfl⟩ | ⟨h1', h2', rfl⟩ <;> simp_all
  all_goals simp_all

/-- A command that succeeds answers the state of its effect. -/
theorem exec_of_succeeds {s u : State} {i : Instr} {v : Nat} (h : Succeeds s i u v) :
    exec i s = .next (u.respond i.opcode.code v) := by
  rcases exec_cases i s with ⟨f, hr, -⟩ | ⟨u', v', h', he⟩
  · exact absurd hr (not_raises_of_succeeds h)
  · obtain ⟨rfl, rfl⟩ := succeeds_unique h h'
    exact he

/-- A command that faults answers the fault and nothing else. -/
theorem exec_of_raises {s : State} {i : Instr} {f : FaultCode} (h : Raises s i f) :
    exec i s = .next (s.raise i.opcode.code f i.command.a) := by
  rcases exec_cases i s with ⟨f', hr, he⟩ | ⟨u', v', h', -⟩
  · rw [raises_unique h hr]
    exact he
  · exact absurd h (not_raises_of_succeeds h')

/-- What no successful command changes. -/
theorem succeeds_frame {s u : State} {i : Instr} {v : Nat} (h : Succeeds s i u v) :
    u.cfg = s.cfg ∧ u.err = s.err ∧ u.inputs = s.inputs ∧ u.responses = s.responses ∧ u.hostReads = s.hostReads := by
  cases i <;> simp only [Succeeds] at h
  case copy dst src size =>
    rcases h with ⟨-, rfl, -⟩ | ⟨-, -, -, rfl, -⟩ <;> simp
  all_goals
    first
      | (obtain ⟨-, -, -, rfl, -⟩ := h; simp)
      | (obtain ⟨-, -, rfl, -⟩ := h; simp)
      | (obtain ⟨-, rfl, -⟩ := h; simp)
      | (obtain ⟨rfl, -⟩ := h; simp)

/-- No fault code is 0x00. -/
theorem faultCode_ne_zero (f : FaultCode) : faultCode f ≠ 0x00 := by
  cases f <;> decide

theorem faultCode_le (f : FaultCode) : (faultCode f).toNat ≤ 9 := by
  cases f <;> decide

end Sys2Proof.Machine
end

