-- ==== Sys2Proof/Laws/PerInstr.lean ====
section
/-! SUPPORT. The statements made per instruction. -/

namespace Sys2Proof.Laws.CommandRoundTrip

/-- The command record of the instruction decodes to it (30_encoding.md R54, R55). -/
def Statement (i : Instr) : Prop := decodeCommand i.command = .ok i

theorem construct (n : Nat) : Statement (.construct n) := rfl

theorem destroy : Statement (.destroy) := rfl

theorem status : Statement (.status) := rfl

theorem isEmpty : Statement (.isEmpty) := rfl

theorem filled : Statement (.filled) := rfl

theorem free : Statement (.free) := rfl

theorem capacity : Statement (.capacity) := rfl

theorem headToEnd : Statement (.headToEnd) := rfl

theorem tailToEnd : Statement (.tailToEnd) := rfl

theorem nextHead (k : Nat) : Statement (.nextHead k) := rfl

theorem nextTail (k : Nat) : Statement (.nextTail k) := rfl

theorem advHead (n : Nat) : Statement (.advHead n) := rfl

theorem advTail (n : Nat) : Statement (.advTail n) := rfl

theorem copy (dst src size : Nat) : Statement (.copy dst src size) := rfl

end Sys2Proof.Laws.CommandRoundTrip
end

