-- ==== Sys2Proof/Laws/Ring.lean ====
section
/-! SUPPORT. The arithmetic of the ring: the bounds of the derived quantities, and how positions move. -/

namespace Sys2Proof.Machine

/-- A constructed ring in range, as numbers. -/
theorem State.ringOk_valid {s : State} (h : s.ringOk) (hv : s.valid = true) :
    1 ≤ s.cap ∧ s.cap ≤ s.cfg.storageBytes ∧ s.head < s.cap ∧ s.tail < s.cap := h.1 hv

theorem ringFilled_lt {cap head tail : Nat} (hh : head < cap) :
    ringFilled cap head tail < cap := by
  unfold ringFilled
  split <;> omega

theorem ringFilled_eq_zero {cap head tail : Nat} (ht : tail < cap) :
    ringFilled cap head tail = 0 ↔ head = tail := by
  unfold ringFilled
  split <;> omega

/-- `HEAD` is `filled` positions ahead of `TAIL`. -/
theorem ringWrap_filled {cap head tail : Nat} (hh : head < cap) (ht : tail < cap) :
    ringWrap cap tail (ringFilled cap head tail) = head := by
  unfold ringWrap ringFilled
  split
  · rw [Nat.add_sub_cancel' (by omega), Nat.mod_eq_of_lt hh]
  · have : tail + (cap - (tail - head)) = head + cap := by omega
    rw [this, Nat.add_mod_right, Nat.mod_eq_of_lt hh]

/-- A position below `CAP` reached by less than `CAP` bytes needs one conditional subtraction (10_state.md R21). -/
theorem ringWrap_of_lt {cap p k : Nat} (hp : p < cap) (hk : k ≤ cap) :
    ringWrap cap p k = if p + k < cap then p + k else p + k - cap := by
  unfold ringWrap
  split
  · rename_i h
    exact Nat.mod_eq_of_lt h
  · rename_i h
    rw [Nat.mod_eq_sub_mod (by omega), Nat.mod_eq_of_lt (by omega)]

theorem ringWrap_lt {cap : Nat} (h : 0 < cap) (p k : Nat) : ringWrap cap p k < cap := Nat.mod_lt _ h

@[simp] theorem ringWrap_ringWrap (cap p k j : Nat) : ringWrap cap (ringWrap cap p k) j = ringWrap cap p (k + j) := by
  simp [ringWrap, Nat.add_assoc]

theorem ringWrap_zero {cap p : Nat} (hp : p < cap) : ringWrap cap p 0 = p := Nat.mod_eq_of_lt hp

/-- Distances below `CAP` reach different positions. -/
theorem ringWrap_inj {cap p j k : Nat} (hj : j < cap) (hk : k < cap)
    (h : ringWrap cap p j = ringWrap cap p k) : j = k := by
  have : j ≡ k [MOD cap] := Nat.ModEq.add_left_cancel' p h
  exact Nat.ModEq.eq_of_lt_of_lt this hj hk

/-- Counting `n` positions forward from `TAIL` gives a ring that holds `n` bytes. -/
theorem ringFilled_ringWrap {cap tail n : Nat} (ht : tail < cap) (hn : n < cap) :
    ringFilled cap (ringWrap cap tail n) tail = n := by
  rw [ringWrap_of_lt ht (by omega)]
  unfold ringFilled
  split <;> split <;> omega

/-! ### On states -/

theorem State.filled_lt {s : State} (h : s.ringOk) (hv : s.valid = true) : s.filled < s.cap :=
  ringFilled_lt (s.ringOk_valid h hv).2.2.1

theorem State.filled_add_free {s : State} (h : s.ringOk) (hv : s.valid = true) : s.filled + s.free = s.cap := by
  have := s.filled_lt h hv
  unfold State.free
  omega

theorem State.wrap_tail_filled {s : State} (h : s.ringOk) (hv : s.valid = true) : s.wrap s.tail s.filled = s.head :=
  ringWrap_filled (s.ringOk_valid h hv).2.2.1 (s.ringOk_valid h hv).2.2.2

theorem State.wrap_lt {s : State} (h : s.ringOk) (hv : s.valid = true) (p k : Nat) : s.wrap p k < s.cap :=
  ringWrap_lt (by have := (s.ringOk_valid h hv).1; omega) p k

/-- The position `i` bytes ahead of `HEAD` is `filled + i` bytes ahead of `TAIL`. -/
theorem State.wrap_head {s : State} (h : s.ringOk) (hv : s.valid = true) (i : Nat) :
    s.wrap s.head i = s.wrap s.tail (s.filled + i) := by
  rw [← s.wrap_tail_filled h hv]
  simp [State.wrap]

/-- The contents, byte by byte. -/
theorem State.contents_eq (s : State) : s.contents = (List.range s.filled).map (fun i => s.ringByte (s.wrap s.tail i)) := by
  simp [State.contents, State.filledPositions, Function.comp_def]

end Sys2Proof.Machine
end

