-- ==== Sys2Proof/Laws/Step.lean ====
section
/-! SUPPORT. What a step can do, said once: which event it takes, and what each event does. -/

namespace Sys2Proof.Machine

/-- The events a step can take, each with the state before it. -/
theorem step_of_inputs {s : State} (h : s.cfg.valid) {i : Input} {rest : List Input} (hi : s.inputs = i :: rest) :
    step s = takeInput i (s.setInputs rest) := by
  unfold step stepInputs
  rw [if_pos h, hi]

theorem step_idle {s : State} (h : s.cfg.valid) (hi : s.inputs = []) : step s = .next s := by
  unfold step stepInputs
  rw [if_pos h, hi]

theorem step_refused {s : State} (h : ¬ s.cfg.valid) : step s = .refused .illegalConfiguration := by
  unfold step
  rw [if_neg h]

/-- What a command word does: illegal, it raises `E_ILLEGAL`; legal, its command faults or succeeds. -/
theorem takeCommand_cases (w : Nat) (s : State) :
    (∃ e, decode s.cfg.xlen w = .error e ∧
      takeCommand w s = .next (s.raise (BitVec.ofNat 8 (w % 256)) .eIllegal (w / 2 ^ 8 % 2 ^ s.cfg.xlen.bits))) ∨
    (∃ i f, decode s.cfg.xlen w = .ok i ∧ Raises s i f ∧
      takeCommand w s = .next (s.raise (BitVec.ofNat 8 (w % 256)) f (w / 2 ^ 8 % 2 ^ s.cfg.xlen.bits))) ∨
    (∃ i u v, decode s.cfg.xlen w = .ok i ∧ Succeeds s i u v ∧
      takeCommand w s = .next (u.respond (BitVec.ofNat 8 (w % 256)) v)) := by
  unfold takeCommand
  cases hd : decode s.cfg.xlen w with
  | error e =>
    refine .inl ⟨e, rfl, ?_⟩
    simp [Command.ofWord, bitField]
  | ok i =>
    rcases exec_cases i s with ⟨f, hr, he⟩ | ⟨u, v, hs, he⟩
    · refine .inr (.inl ⟨i, f, rfl, hr, ?_⟩)
      rw [← op_of_decode hd, ← a_of_decode hd]
      exact he
    · refine .inr (.inr ⟨i, u, v, rfl, hs, ?_⟩)
      rw [← op_of_decode hd]
      exact he

/-- The step that takes a command word: it raises one fault, or its command succeeds. -/
theorem step_command_cases {s : State} {w : Nat} {rest : List Input} (hc : s.cfg.valid)
    (hi : s.inputs = .command w :: rest) :
    (∃ f, step s =
        .next ((s.setInputs rest).raise (BitVec.ofNat 8 (w % 256)) f (w / 2 ^ 8 % 2 ^ s.cfg.xlen.bits)) ∧
      ((∃ e, decode s.cfg.xlen w = .error e ∧ f = .eIllegal) ∨
        ∃ i, decode s.cfg.xlen w = .ok i ∧ Raises s i f)) ∨
    (∃ i u v, decode s.cfg.xlen w = .ok i ∧ Succeeds (s.setInputs rest) i u v ∧
      step s = .next (u.respond (BitVec.ofNat 8 (w % 256)) v)) := by
  rw [step_of_inputs hc hi]
  rcases takeCommand_cases w (s.setInputs rest) with ⟨e, hd, h⟩ | ⟨i, f, hd, hr, h⟩ | ⟨i, u, v, hd, hs, h⟩
  · exact .inl ⟨_, h, .inl ⟨e, hd, rfl⟩⟩
  · refine .inl ⟨f, h, .inr ⟨i, hd, ?_⟩⟩
    cases i <;> exact hr
  · exact .inr ⟨i, u, v, hd, hs, h⟩

/-- What a raced copy does: a `COPY` past its checks answers `OK` with the bytes the event says, anything else is
refused. -/
theorem takeRacedCopy_cases (w : Nat) (seen ends reads : List Host.Cell) (s : State) :
    (∃ dst src size, decode s.cfg.xlen w = .ok (.copy dst src size) ∧ copyMoves s.cfg dst src size = true ∧
      takeRacedCopy w seen ends reads s = .next (s.raced dst src size seen ends reads)) ∨
    takeRacedCopy w seen ends reads s = .refused .noCopyInFlight := by
  unfold takeRacedCopy
  split
  · rename_i dst src size hd
    split
    · rename_i hm
      exact .inl ⟨dst, src, size, hd, hm, rfl⟩
    · exact .inr rfl
  · exact .inr rfl

/-! ### The state after a raced copy, field by field -/

section raced
variable (s : State) (dst src size : Nat) (seen ends reads : List Host.Cell)

@[simp] theorem State.cfg_raced : (s.raced dst src size seen ends reads).cfg = s.cfg := rfl
@[simp] theorem State.valid_raced : (s.raced dst src size seen ends reads).valid = s.valid := rfl
@[simp] theorem State.cap_raced : (s.raced dst src size seen ends reads).cap = s.cap := rfl
@[simp] theorem State.head_raced : (s.raced dst src size seen ends reads).head = s.head := rfl
@[simp] theorem State.tail_raced : (s.raced dst src size seen ends reads).tail = s.tail := rfl
@[simp] theorem State.err_raced : (s.raced dst src size seen ends reads).err = s.err := rfl
@[simp] theorem State.mem_raced : (s.raced dst src size seen ends reads).mem =
    racedMem dst src size (copyMove s.cfg.vlen dst src size (racedMem dst src size s.mem seen)).1 ends := rfl
@[simp] theorem State.inputs_raced : (s.raced dst src size seen ends reads).inputs = s.inputs := rfl
@[simp] theorem State.responses_raced : (s.raced dst src size seen ends reads).responses =
    s.responses ++ [{ op := 0x30, status := statusOk, value := dst }] := rfl
@[simp] theorem State.beats_raced : (s.raced dst src size seen ends reads).beats =
    s.beats ++ (copyMove s.cfg.vlen dst src size (racedMem dst src size s.mem seen)).2 := rfl
@[simp] theorem State.hostReads_raced : (s.raced dst src size seen ends reads).hostReads =
    s.hostReads ++ reads.filter (fun p => inCopyRegions dst src size p.1) := rfl

end raced

/-! ### The beats an abandoned command issued -/

/-- They are a prefix of those of the `COPY`, or none. -/
theorem abandonedBeats_cases (w issued : Nat) (s : State) :
    (∃ dst src size, decode s.cfg.xlen w = .ok (.copy dst src size) ∧ copyMoves s.cfg dst src size = true ∧
      abandonedBeats w issued s = (copyMove s.cfg.vlen dst src size s.mem).2.take issued) ∨
    abandonedBeats w issued s = [] := by
  unfold abandonedBeats
  split
  · rename_i dst src size hd
    split
    · rename_i hm
      exact .inl ⟨dst, src, size, hd, hm, rfl⟩
    · exact .inr rfl
  · exact .inr rfl

theorem abandonedBeats_legal {w issued : Nat} {s : State} {b : Beat} (hb : b ∈ abandonedBeats w issued s) :
    beatLegal s.cfg b := by
  rcases abandonedBeats_cases w issued s with ⟨dst, src, size, -, hm, h⟩ | h
  · rw [h] at hb
    exact copyMove_beat_legal ((copyMoves_iff _ _ _ _).1 hm).2.1 (List.mem_of_mem_take hb)
  · rw [h] at hb
    cases hb

/-! ### The memory a raced copy leaves -/

theorem inCopyRegions_iff (dst src size a : Nat) :
    inCopyRegions dst src size a = true ↔ (dst ≤ a ∧ a < dst + size) ∨ (src ≤ a ∧ a < src + size) := by
  simp [inCopyRegions]

/-- A byte outside the two regions, or not listed, reads as the completed copy leaves it. -/
theorem racedMem_read_of_not_mem {dst src size : Nat} (m : Memory) (ps : List Host.Cell) (x : Nat)
    (h : inCopyRegions dst src size x = false ∨ ∀ p ∈ ps, p.1 ≠ x) :
    (racedMem dst src size m ps).read x = m.read x := by
  induction ps with
  | nil => rfl
  | cons p ps ih =>
    have ih' := ih (h.imp id fun h q hq => h q (List.mem_cons_of_mem _ hq))
    simp only [racedMem]
    split
    · rename_i hp
      rw [Memory.read_write, if_neg, ih']
      rintro rfl
      rcases h with h | h
      · rw [hp] at h
        cases h
      · exact h p (by simp) rfl
    · exact ih'

/-- A byte of the regions whose value differs from the completed copy's holds a listed value. -/
theorem racedMem_read_mem {dst src size : Nat} (m : Memory) (ps : List Host.Cell) (x : Nat) :
    (racedMem dst src size m ps).read x = m.read x ∨ (x, (racedMem dst src size m ps).read x) ∈ ps := by
  induction ps with
  | nil => exact .inl rfl
  | cons p ps ih =>
    have ih' := ih.imp id (fun h => List.mem_cons_of_mem p h)
    simp only [racedMem]
    split
    · rw [Memory.read_write]
      by_cases hx : x = p.1
      · rw [if_pos hx]
        exact .inr (by simp [hx])
      · rw [if_neg hx]
        exact ih'
    · exact ih'

theorem racedMem_wf {m : Memory} (h : m.wf) (dst src size : Nat) (ps : List Host.Cell) :
    (racedMem dst src size m ps).wf := by
  induction ps with
  | nil => exact h
  | cons p ps ih =>
    simp only [racedMem]
    split
    · exact Memory.write_wf ih _ _
    · exact ih

theorem racedMem_inside {m : Memory} {n : Nat} (h : m.inside n) {dst src size : Nat} (hd : dst + size ≤ n)
    (hs : src + size ≤ n) (ps : List Host.Cell) : (racedMem dst src size m ps).inside n := by
  induction ps with
  | nil => exact h
  | cons p ps ih =>
    simp only [racedMem]
    split
    · rename_i hp
      have := (inCopyRegions_iff _ _ _ _).1 hp
      exact Memory.write_inside ih (by omega) _
    · exact ih

/-- What a step that answers a next state has done. -/
theorem step_cases {s t : State} (h : step s = .next t) : s.cfg.valid ∧
    ((s.inputs = [] ∧ t = s) ∨
    (∃ w rest, s.inputs = .command w :: rest ∧ takeCommand w (s.setInputs rest) = .next t) ∨
    (∃ rest, s.inputs = .reset :: rest ∧ t = (s.setInputs rest).resetRegisters) ∨
    (∃ w landed issued rest, s.inputs = .resetDuring w landed issued :: rest ∧
      t = (((s.setInputs rest).setMem (abandonedMem w landed (s.setInputs rest))).recordBeats
        (abandonedBeats w issued (s.setInputs rest))).resetRegisters) ∨
    (∃ a v rest, s.inputs = .hostWrite a v :: rest ∧ a < s.cfg.memBytes ∧
      t = (s.setInputs rest).setMem (s.mem.write a v)) ∨
    (∃ a rest, s.inputs = .hostRead a :: rest ∧ a < s.cfg.memBytes ∧
      t = (s.setInputs rest).recordHostRead a (s.mem.read a)) ∨
    (∃ w seen ends reads rest dst src size, s.inputs = .racedCopy w seen ends reads :: rest ∧
      decode s.cfg.xlen w = .ok (.copy dst src size) ∧ copyMoves s.cfg dst src size = true ∧
      t = (s.setInputs rest).raced dst src size seen ends reads)) := by
  by_cases hc : s.cfg.valid
  · refine ⟨hc, ?_⟩
    cases hi : s.inputs with
    | nil =>
      rw [step_idle hc hi] at h
      exact .inl ⟨rfl, (Host.Outcome.next.inj h).symm⟩
    | cons i rest =>
      rw [step_of_inputs hc hi] at h
      cases i with
      | command w => exact .inr (.inl ⟨w, rest, rfl, h⟩)
      | reset => exact .inr (.inr (.inl ⟨rest, rfl, (Host.Outcome.next.inj h).symm⟩))
      | resetDuring w landed issued =>
        exact .inr (.inr (.inr (.inl ⟨w, landed, issued, rest, rfl, (Host.Outcome.next.inj h).symm⟩)))
      | hostWrite a v =>
        by_cases ha : a < s.cfg.memBytes
        · have hw : takeInput (.hostWrite a v) (s.setInputs rest) = .next ((s.setInputs rest).setMem (s.mem.write a v)) :=
            if_pos ha
          rw [hw] at h
          exact .inr (.inr (.inr (.inr (.inl ⟨a, v, rest, rfl, ha, (Host.Outcome.next.inj h).symm⟩))))
        · have hw : takeInput (.hostWrite a v) (s.setInputs rest) = .fault (.hostAccessOutsideMem a) := if_neg ha
          rw [hw] at h
          cases h
      | hostRead a =>
        by_cases ha : a < s.cfg.memBytes
        · have hw : takeInput (.hostRead a) (s.setInputs rest) =
              .next ((s.setInputs rest).recordHostRead a (s.mem.read a)) := if_pos ha
          rw [hw] at h
          exact .inr (.inr (.inr (.inr (.inr (.inl ⟨a, rest, rfl, ha, (Host.Outcome.next.inj h).symm⟩)))))
        · have hw : takeInput (.hostRead a) (s.setInputs rest) = .fault (.hostAccessOutsideMem a) := if_neg ha
          rw [hw] at h
          cases h
      | racedCopy w seen ends reads =>
        rcases takeRacedCopy_cases w seen ends reads (s.setInputs rest) with ⟨dst, src, size, hd, hm, hr⟩ | hr
        · have hw : takeInput (.racedCopy w seen ends reads) (s.setInputs rest) = _ := hr
          rw [hw] at h
          exact .inr (.inr (.inr (.inr (.inr (.inr
            ⟨w, seen, ends, reads, rest, dst, src, size, rfl, hd, hm, (Host.Outcome.next.inj h).symm⟩)))))
        · have hw : takeInput (.racedCopy w seen ends reads) (s.setInputs rest) = _ := hr
          rw [hw] at h
          cases h
  · rw [step_refused hc] at h
    cases h

end Sys2Proof.Machine
end

