-- ==== Sys2Proof/Tests/Slice0.lean ====
section
/-! SUPPORT. The model's own tests. Expected results are worked from the spec's encodings and vectors
(30_encoding.md section 6, 95_test_vectors.md), never from the model. Then, for every statement with hypotheses, a
witness that meets them, at boundary values. -/

namespace Sys2Proof.Tests

open Sys2Proof Sys2Proof.Machine

/-! ### Small states -/

/-- A state of REF with a ring object. -/
def ring (cap head tail : Nat) (err : Byte) : State :=
  { State.reset with valid := true, cap := cap, head := head, tail := tail, err := err }

/-- The same with the bytes `vs` from address `a` on. -/
def holding (s : State) (a : Nat) (vs : List Byte) : State := s.setMem (s.mem.writeBytes a vs)

/-- With one event pending. -/
def given (s : State) (i : Input) : State := s.setInputs [i]

/-- The five registers and the responses after an outcome that is a next state. -/
def shown (o : Host.Outcome State Fault Refusal) : Option ((Bool × Nat × Nat × Nat × Byte) × List Response) :=
  match o with
  | .next t => some ((t.valid, t.cap, t.head, t.tail, t.err), t.responses)
  | .fault _ => none
  | .refused _ => none

/-- `n` bytes of memory after it. -/
def bytesAt (a n : Nat) (o : Host.Outcome State Fault Refusal) : Option (List Byte) :=
  match o with
  | .next t => some (t.mem.readBytes a n)
  | .fault _ => none
  | .refused _ => none

/-- The beats after it, as kind, address and width. -/
def beatsOf (o : Host.Outcome State Fault Refusal) : Option (List (BeatKind × Nat × Nat)) :=
  match o with
  | .next t => some (t.beats.map (fun b => (b.kind, b.addr, b.data.length)))
  | .fault _ => none
  | .refused _ => none

/-- The stop of an outcome. -/
def stopOf (o : Host.Outcome State Fault Refusal) : Option (Fault ⊕ Refusal) :=
  match o with
  | .next _ => none
  | .fault f => some (.inl f)
  | .refused r => some (.inr r)

/-! ### Well-formedness: each check refuses an ill-formed term -/

theorem test_wf_construct : Instr.wf .x32 (.construct 0x100000000) = false := by decide
theorem test_wf_nextHead : Instr.wf .x16 (.nextHead 0x10000) = false := by decide
theorem test_wf_nextTail : Instr.wf .x32 (.nextTail 0x100000000) = false := by decide
theorem test_wf_advHead : Instr.wf .x64 (.advHead 0x10000000000000000) = false := by decide
theorem test_wf_advTail : Instr.wf .x32 (.advTail 0x100000000) = false := by decide
theorem test_wf_copy_dst : Instr.wf .x32 (.copy 0x100000000 0 0) = false := by decide
theorem test_wf_copy_src : Instr.wf .x32 (.copy 0 0x100000000 0) = false := by decide
theorem test_wf_copy_size : Instr.wf .x32 (.copy 0 0 0x100000000) = false := by decide
theorem test_wf_copy_largest : Instr.wf .x32 (.copy 0xFFFFFFFF 0xFFFFFFFF 0xFFFFFFFF) = true := by decide
theorem test_wf_command_a : Command.wf .x16 { op := 0x01, a := 0x10000, b := 0, c := 0 } = false := by decide
theorem test_wf_command_b : Command.wf .x16 { op := 0x01, a := 0, b := 0x10000, c := 0 } = false := by decide
theorem test_wf_command_c : Command.wf .x16 { op := 0x01, a := 0, b := 0, c := 0x10000 } = false := by decide
theorem test_config_ref : Config.ref.valid := by decide
theorem test_config_no_memory : ¬ Config.valid { Config.ref with memBytes := 0 } := by decide
theorem test_config_memory_too_large : ¬ Config.valid { Config.ref with memBytes := 0x100000001 } := by decide
theorem test_config_window_outside : ¬ Config.valid { Config.ref with storageBase := 0xF001 } := by decide
theorem test_config_no_storage : ¬ Config.valid { Config.ref with storageBytes := 0 } := by decide
theorem test_config_storage_too_large : ¬ Config.valid
    { xlen := .x16, memBytes := 0x10000, storageBase := 0, storageBytes := 0x10000, vlen := .v64 } := by decide

/-! ### Decoding: words written out from R50, R51, R55, as `0xc_b_a_op` -/

theorem test_decode_construct : decode .x32 0x00000000_00000000_00000010_01 = .ok (.construct 16) := by decide
theorem test_decode_destroy : decode .x32 0x00000000_00000000_00000000_02 = .ok .destroy := by decide
theorem test_decode_status : decode .x32 0x00000000_00000000_00000000_03 = .ok .status := by decide
theorem test_decode_isEmpty : decode .x32 0x00000000_00000000_00000000_10 = .ok .isEmpty := by decide
theorem test_decode_filled : decode .x32 0x00000000_00000000_00000000_11 = .ok .filled := by decide
theorem test_decode_free : decode .x32 0x00000000_00000000_00000000_12 = .ok .free := by decide
theorem test_decode_capacity : decode .x32 0x00000000_00000000_00000000_13 = .ok .capacity := by decide
theorem test_decode_headToEnd : decode .x32 0x00000000_00000000_00000000_14 = .ok .headToEnd := by decide
theorem test_decode_tailToEnd : decode .x32 0x00000000_00000000_00000000_15 = .ok .tailToEnd := by decide
theorem test_decode_nextHead : decode .x32 0x00000000_00000000_FFFFFFFF_16 = .ok (.nextHead 0xFFFFFFFF) := by decide
theorem test_decode_nextTail : decode .x32 0x00000000_00000000_00000003_17 = .ok (.nextTail 3) := by decide
theorem test_decode_advHead : decode .x32 0x00000000_00000000_00000008_20 = .ok (.advHead 8) := by decide
theorem test_decode_advTail : decode .x32 0x00000000_00000000_0000000A_21 = .ok (.advTail 10) := by decide
theorem test_decode_copy : decode .x32 0x00000004_00000100_0000800C_30 = .ok (.copy 0x800C 0x0100 4) := by decide
theorem test_decode_copy_x16 : decode .x16 0x003F_0100_0400_30 = .ok (.copy 0x0400 0x0100 0x3F) := by decide
theorem test_decode_copy_x64 :
    decode .x64 0x0000000000000003_0000000000000002_8000000000000001_30 = .ok (.copy 0x8000000000000001 2 3) := by decide
theorem test_decode_zero_is_reserved : decode .x32 0 = .error (.reservedOpcode 0x00) := by decide
theorem test_decode_reserved_FF : decode .x32 0xFF = .error (.reservedOpcode 0xFF) := by decide
theorem test_decode_capacity_a : decode .x32 0x00000000_00000000_00000001_13 = .error (.nonzeroField 0x13) := by decide
theorem test_decode_destroy_b : decode .x32 0x00000000_00000001_00000000_02 = .error (.nonzeroField 0x02) := by decide
theorem test_decode_advHead_c : decode .x32 0x00000001_00000000_00000008_20 = .error (.nonzeroField 0x20) := by decide
theorem test_decode_nextHead_b : decode .x32 0x00000000_00000001_00000000_16 = .error (.nonzeroField 0x16) := by decide
theorem test_decode_table_word : decodeTableWord 8 0x21 = some (.advTail 0) := by decide
theorem test_decode_table_word_wide : decodeTableWord 104 0x00000004_00000100_0000800C_30 =
    some (.copy 0x800C 0x0100 4) := by decide
theorem test_encode_copy : encode .x32 (.copy 0x800C 0x0100 4) = 0x00000004_00000100_0000800C_30 := by decide
theorem test_response_word : Response.toWord { op := 0x20, status := 0x06, value := 6 } = 0x00000006_06_20 := by decide

/-! ### The commands, on the rows of 95_test_vectors.md section 2 -/

theorem test_construct_largest : shown (exec (.construct 0x1000) State.reset) =
    some ((true, 4096, 0, 0, 0x00), [⟨0x01, 0x00, 0x1000⟩]) := by decide
theorem test_construct_state_before_operand : shown (exec (.construct 0) (ring 16 0 0 0x00)) =
    some ((true, 16, 0, 0, 0x05), [⟨0x01, 0x05, 0⟩]) := by decide
theorem test_destroy : shown (exec .destroy (ring 16 4 12 0x00)) =
    some ((false, 0, 0, 0, 0x00), [⟨0x02, 0x00, 0⟩]) := by decide
theorem test_destroy_nothing : shown (exec .destroy State.reset) =
    some ((false, 0, 0, 0, 0x04), [⟨0x02, 0x04, 0⟩]) := by decide
theorem test_status : shown (exec .status (ring 8 5 3 0x06)) =
    some ((true, 8, 5, 3, 0x06), [⟨0x03, 0x00, 0x0601⟩]) := by decide
theorem test_isEmpty_capacity_one : shown (exec .isEmpty (ring 1 0 0 0x00)) =
    some ((true, 1, 0, 0, 0x00), [⟨0x10, 0x00, 1⟩]) := by decide
theorem test_isEmpty_full : shown (exec .isEmpty (ring 8 2 3 0x06)) =
    some ((true, 8, 2, 3, 0x06), [⟨0x10, 0x00, 0⟩]) := by decide
theorem test_filled_straddling : shown (exec .filled (ring 16 4 12 0x00)) =
    some ((true, 16, 4, 12, 0x00), [⟨0x11, 0x00, 8⟩]) := by decide
theorem test_free_full : shown (exec .free (ring 4096 4095 0 0x00)) =
    some ((true, 4096, 4095, 0, 0x00), [⟨0x12, 0x00, 1⟩]) := by decide
theorem test_capacity : shown (exec .capacity (ring 10 7 7 0x00)) =
    some ((true, 10, 7, 7, 0x00), [⟨0x13, 0x00, 10⟩]) := by decide
theorem test_headToEnd : shown (exec .headToEnd (ring 16 4 12 0x00)) =
    some ((true, 16, 4, 12, 0x00), [⟨0x14, 0x00, 12⟩]) := by decide
theorem test_tailToEnd : shown (exec .tailToEnd (ring 16 4 12 0x00)) =
    some ((true, 16, 4, 12, 0x00), [⟨0x15, 0x00, 4⟩]) := by decide
theorem test_nextHead_no_overflow : shown (exec (.nextHead 0xFFFFFFFF) (ring 10 7 7 0x00)) =
    some ((true, 10, 7, 7, 0x00), [⟨0x16, 0x00, 2⟩]) := by decide
theorem test_nextTail_no_overflow : shown (exec (.nextTail 0xFFFFFFFE) (ring 3 2 0 0x00)) =
    some ((true, 3, 2, 0, 0x00), [⟨0x17, 0x00, 2⟩]) := by decide
theorem test_advHead_to_full : shown (exec (.advHead 15) (ring 16 12 12 0x00)) =
    some ((true, 16, 11, 12, 0x00), [⟨0x20, 0x00, 11⟩]) := by decide
theorem test_advHead_overrun : shown (exec (.advHead 6) (ring 8 5 3 0x00)) =
    some ((true, 8, 5, 3, 0x06), [⟨0x20, 0x06, 6⟩]) := by decide
theorem test_advTail_to_empty : shown (exec (.advTail 8) (ring 16 4 12 0x00)) =
    some ((true, 16, 4, 4, 0x00), [⟨0x21, 0x00, 4⟩]) := by decide
theorem test_advTail_underrun : shown (exec (.advTail 9) (ring 16 4 12 0x02)) =
    some ((true, 16, 4, 12, 0x02), [⟨0x21, 0x07, 9⟩]) := by decide
theorem test_copy_bounds_before_alias : shown (exec (.copy 0xFFFE 0xFFFF 4) State.reset) =
    some ((false, 0, 0, 0, 0x08), [⟨0x30, 0x08, 0xFFFE⟩]) := by decide

/-- The data vector of 95_test_vectors.md section 2.7, with the bytes on either side of the destination. -/
def dataVector : State :=
  holding (holding State.reset 0x0100 [0x03, 0x0A, 0x11, 0x18, 0x1F, 0x26, 0x2D]) 0x0200
    [0xAA, 0xAA, 0xAA, 0xAA, 0xAA, 0xAA, 0xAA, 0xAA, 0xAA]

theorem test_copy_data_and_beats : bytesAt 0x0200 9 (exec (.copy 0x0201 0x0100 7) dataVector) =
      some [0xAA, 0x03, 0x0A, 0x11, 0x18, 0x1F, 0x26, 0x2D, 0xAA] ∧
    beatsOf (exec (.copy 0x0201 0x0100 7) dataVector) =
      some [(.read, 0x0100, 4), (.write, 0x0201, 4), (.read, 0x0104, 1), (.write, 0x0205, 1),
        (.read, 0x0105, 1), (.write, 0x0206, 1), (.read, 0x0106, 1), (.write, 0x0207, 1)] := by decide
theorem test_staging_register : stagingWord [0x03, 0x0A, 0x11, 0x18] = 0x18110A03 := by decide
theorem test_staging_lane : stagingLane 0x18110A03 3 = 0x18 := by decide
theorem test_schedule_63 : schedule (widthsPresent .v512) 63 = [32, 16, 8, 4, 1, 1, 1] := by decide
theorem test_schedule_63_v128 : schedule (widthsPresent .v128) 63 = [16, 16, 16, 8, 4, 1, 1, 1] := by decide
theorem test_schedule_127 : schedule (widthsPresent .v512) 127 = [64, 32, 16, 8, 4, 1, 1, 1] := by decide
theorem test_schedule_3 : schedule (widthsPresent .v64) 3 = [1, 1, 1] := by decide
theorem test_chunks_1500 : (chunkCount .v512 1500, chunkCount .v256 1500, chunkCount .v128 1500, chunkCount .v64 1500) =
    (26, 49, 95, 188) := by decide
theorem test_full : (ring 8 2 3 0x06).isFull = true := by decide

/-! ### The step and its events -/

theorem test_step_illegal_answers_a : shown (step (given (ring 16 4 12 0x00) (.command 0x00000000_00000000_00000007_18))) =
    some ((true, 16, 4, 12, 0x01), [⟨0x18, 0x01, 7⟩]) := by decide
theorem test_step_reset : shown (step (given (ring 8 2 3 0x06) .reset)) = some ((false, 0, 0, 0, 0x00), []) := by decide
theorem test_step_idle : shown (step (ring 8 2 3 0x06)) = some ((true, 8, 2, 3, 0x06), []) := by decide
theorem test_step_host_write : bytesAt 0x0FF 3 (step (given (holding State.reset 0x0FF [1, 2, 3]) (.hostWrite 0x100 9))) =
    some [1, 9, 3] := by decide
theorem test_step_host_outside : stopOf (step (given State.reset (.hostRead 0x10000))) =
    some (.inl (.hostAccessOutsideMem 0x10000)) := by decide
theorem test_step_reset_in_copy :
    bytesAt 0x0200 9 (step (given dataVector (.resetDuring 0x00000007_00000100_00000201_30 [0, 6] 3))) =
      some [0xAA, 0x03, 0xAA, 0xAA, 0xAA, 0xAA, 0xAA, 0x2D, 0xAA] ∧
    beatsOf (step (given dataVector (.resetDuring 0x00000007_00000100_00000201_30 [0, 6] 3))) =
      some [(.read, 0x0100, 4), (.write, 0x0201, 4), (.read, 0x0104, 1)] := by decide
theorem test_step_raced_copy :
    bytesAt 0x0200 9 (step (given dataVector
        (.racedCopy 0x00000007_00000100_00000201_30 [(0x0104, 0x55)] [(0x0203, 0x77), (0x0208, 0x66)] []))) =
      some [0xAA, 0x03, 0x0A, 0x77, 0x18, 0x55, 0x26, 0x2D, 0xAA] ∧
    beatsOf (step (given dataVector
        (.racedCopy 0x00000007_00000100_00000201_30 [(0x0104, 0x55)] [(0x0203, 0x77), (0x0208, 0x66)] []))) =
      some [(.read, 0x0100, 4), (.write, 0x0201, 4), (.read, 0x0104, 1), (.write, 0x0205, 1),
        (.read, 0x0105, 1), (.write, 0x0206, 1), (.read, 0x0106, 1), (.write, 0x0207, 1)] := by decide
theorem test_step_no_race : stopOf (step (given State.reset (.racedCopy 0x10 [] [] []))) =
    some (.inr .noCopyInFlight) := by decide
theorem test_step_illegal_configuration :
    stopOf (step { State.reset with cfg := { Config.ref with storageBytes := 0 } }) =
      some (.inr .illegalConfiguration) := by decide
theorem test_fetch_word : shown (step (State.reset.withFetchWord 8 0x03)) =
    some ((false, 0, 0, 0, 0x00), [⟨0x03, 0x00, 0⟩]) := by decide

/-! ### The canonical form of memory -/

theorem test_memory_write_back_removes : (Memory.blank.write 5 1).write 5 0xA5 = Memory.blank := by decide
theorem test_memory_order : (Memory.blank.write 5 1).write 3 2 = (Memory.blank.write 3 2).write 5 1 := by decide
theorem test_memory_not_sorted : ¬ Memory.wf { unwritten := 0, cells := [(5, 1), (3, 2)] } := by decide
theorem test_memory_lists_unwritten : ¬ Memory.wf { unwritten := 0, cells := [(5, 0)] } := by decide

/-! ### Witnesses: each statement's hypotheses met, clause by clause, at boundary values -/

theorem witness_DecodeOfEncodeIsTheCommand :
    Instr.wf .x32 (.copy 0xFFFFFFFF 0 0xFFFFFFFF) = true ∧ Instr.wf .x16 (.construct 0xFFFF) = true ∧
      Instr.wf .x64 .destroy = true := by decide

theorem witness_EncodeOfDecodeIsTheWord :
    0xFFFFFFFF_FFFFFFFF_FFFFFFFF_30 < 2 ^ commandBits .x32 ∧
      decode .x32 0xFFFFFFFF_FFFFFFFF_FFFFFFFF_30 = .ok (.copy 0xFFFFFFFF 0xFFFFFFFF 0xFFFFFFFF) := ⟨by decide, rfl⟩

theorem witness_DecodingTakesTwoSteps :
    0x31 ∉ [0x01, 0x02, 0x03, 0x10, 0x11, 0x12, 0x13, 0x14, 0x15, 0x16, 0x17, 0x20, 0x21, 0x30] ∧
    (0x11 ∈ [0x02, 0x03, 0x10, 0x11, 0x12, 0x13, 0x14, 0x15] ∧ 0x1_11 / 2 ^ 8 % 2 ^ XLen.bits .x32 ≠ 0) ∧
    (∃ (s : State) (w : Nat) (rest : List Input) (e : DecodeError), s.cfg.valid ∧ s.inputs = .command w :: rest ∧ decode s.cfg.xlen w = .error e) ∧
    0x10 < 2 ^ commandBits .x16 ∧ decode .x16 0x10 = .ok .isEmpty :=
  ⟨by decide, by decide, ⟨given State.reset (.command 0x1_11), 0x1_11, [], .nonzeroField 0x11, by decide, rfl, rfl⟩,
    by decide, rfl⟩

theorem witness_ReservedOpcodesAreIllegal :
    (given State.reset (.command 0xFF)).cfg.valid ∧ (given State.reset (.command 0xFF)).inputs = [.command 0xFF] ∧
    (0x31 ≤ 0x31 % 256 ∧ 0x31 ≤ 0xFF % 256) ∧ 0x00 % 256 = 0x00 ∧ (0x04 ≤ 0x04 % 256 ∧ 0x0F % 256 ≤ 0x0F) ∧
    (0x18 ≤ 0x18 % 256 ∧ 0x1F % 256 ≤ 0x1F) ∧ (0x22 ≤ 0x22 % 256 ∧ 0x2F % 256 ≤ 0x2F) := by decide

theorem witness_NonzeroUnusedFieldsAreIllegal :
    (given State.reset (.command 0x80000000_00000000_00000005_20)).cfg.valid ∧
    (0x20 ∈ [0x01, 0x16, 0x17, 0x20, 0x21] ∧ 0x80000000_00000000_00000005_20 / 2 ^ (2 * 32 + 8) % 2 ^ 32 ≠ 0) ∧
    (0x02 ∈ [0x02, 0x03, 0x10, 0x11, 0x12, 0x13, 0x14, 0x15] ∧ 0x00000000_00000001_00000000_02 / 2 ^ (32 + 8) % 2 ^ 32 ≠ 0)
    := by decide

theorem witness_ResponseWordsRoundTrip :
    0xFFFFFFFF < 2 ^ XLen.bits .x32 ∧ 0xFFFFFFFF_FF_FF < 2 ^ responseBits .x32 := by decide

theorem witness_StepRunsTheDecodedCommand :
    (∃ (s : State) (w : Nat) (rest : List Input) (i : Instr), s.cfg.valid ∧ s.inputs = .command w :: rest ∧ decode s.cfg.xlen w = .ok i) ∧
    (State.reset.cfg.valid ∧ decode State.reset.cfg.xlen (0x11 % 2 ^ 8) = .ok .filled) ∧
    (State.reset.cfg.valid ∧ State.reset.inputs = []) ∧
    (∃ s : State, ¬ s.cfg.valid) :=
  ⟨⟨given State.reset (.command 0x10), 0x10, [], .isEmpty, by decide, rfl, rfl⟩, ⟨by decide, rfl⟩, ⟨by decide, rfl⟩,
    ⟨{ State.reset with cfg := { Config.ref with storageBytes := 0 } }, by decide⟩⟩

/-- The three kinds of premise of the encoding clauses: the largest word and operand of a port. -/
theorem witness_encoded :
    2 ^ 104 - 1 < 2 ^ commandBits .x32 ∧ 2 ^ 32 - 1 < 2 ^ XLen.bits .x32 ∧ 0 < 2 ^ XLen.bits .x16 := by decide

theorem witness_ConstructFollowsItsRule :
    (ring 16 0 0 0x00).valid = true ∧ (State.reset.valid = false ∧ State.reset.cfg.storageBytes < 0x1001) ∧
      (1 ≤ 1 ∧ 1 ≤ State.reset.cfg.storageBytes) ∧ (1 ≤ 0x1000 ∧ 0x1000 ≤ State.reset.cfg.storageBytes) := by decide

theorem witness_DestroyFollowsItsRule :
    State.reset.valid = false ∧ ((ring 16 4 12 0x00).valid = true ∧ 1 ≤ 0x1000 ∧
      0x1000 ≤ (ring 16 4 12 0x00).cfg.storageBytes) := by decide

/-- The premises of the queries: no ring; and a ring in range, full, empty, and of capacity 1. -/
theorem witness_queries :
    State.reset.valid = false ∧ ((ring 8 2 3 0x06).ringOk ∧ (ring 8 2 3 0x06).valid = true) ∧
      ((ring 1 0 0 0x00).ringOk ∧ (ring 1 0 0 0x00).valid = true) ∧
      ((ring 4096 4095 4095 0x00).ringOk ∧ (ring 4096 4095 4095 0x00).valid = true) := by decide

theorem witness_IsEmptyFollowsItsRule :
    State.reset.valid = false ∧ ((ring 16 5 5 0x00).ringOk ∧ (ring 16 5 5 0x00).valid = true) ∧
    ((ring 1 0 0 0x00).ringOk ∧ (ring 1 0 0 0x00).valid = true ∧ (ring 1 0 0 0x00).cap = 1) := by decide

theorem witness_FilledFollowsItsRule :
    State.reset.valid = false ∧
    ((ring 16 15 15 0x00).valid = true ∧ (ring 16 15 15 0x00).tail ≤ (ring 16 15 15 0x00).head) ∧
    ((ring 16 0 15 0x00).valid = true ∧ (ring 16 0 15 0x00).head < (ring 16 0 15 0x00).tail) ∧
    (ring 16 0 15 0x00).ringOk := by decide

theorem witness_FreeFollowsItsRule :
    State.reset.valid = false ∧ (ring 8 2 3 0x00).ringOk ∧ (ring 8 2 3 0x00).valid = true := by decide

theorem witness_CapacityFollowsItsRule :
    State.reset.valid = false ∧ (ring 0x1000 0 0 0x00).ringOk ∧ (ring 0x1000 0 0 0x00).valid = true := by decide

theorem witness_HeadToEndFollowsItsRule :
    State.reset.valid = false ∧ (ring 16 15 0 0x00).ringOk ∧ (ring 16 15 0 0x00).valid = true := by decide

theorem witness_TailToEndFollowsItsRule :
    State.reset.valid = false ∧ (ring 16 0 15 0x00).ringOk ∧ (ring 16 0 15 0x00).valid = true := by decide

theorem witness_NextHeadFollowsItsRule :
    State.reset.valid = false ∧ (ring 10 9 7 0x00).ringOk ∧ (ring 10 9 7 0x00).valid = true := by decide

theorem witness_NextTailFollowsItsRule :
    State.reset.valid = false ∧ (ring 10 7 9 0x00).ringOk ∧ (ring 10 7 9 0x00).valid = true := by decide

theorem witness_WrapIsTheMathematicalOne : 0 < 1 ∧ 4094 < 4095 := by decide

theorem witness_QueriesArePure :
    Instr.nextTail 0xFFFFFFFF ∈ [Instr.isEmpty, .filled, .free, .capacity, .headToEnd, .tailToEnd,
      .nextHead 0xFFFFFFFF, .nextTail 0xFFFFFFFF] ∧ (ring 16 4 12 0x06).valid = true ∧ State.reset.valid = false ∧
    (ring 16 4 12 0x06).Inv ∧ 0xFFFFFFFF < 2 ^ (ring 16 4 12 0x06).cfg.xlen.bits ∧
    (dataVector.valid = State.reset.valid ∧ dataVector.cap = State.reset.cap ∧ dataVector.head = State.reset.head ∧
      dataVector.tail = State.reset.tail) := by decide

theorem witness_AdvHeadFollowsItsRule :
    State.reset.valid = false ∧ ((ring 16 12 12 0x00).valid = true ∧ (ring 16 12 12 0x00).free ≤ 16) ∧
    ((ring 16 12 12 0x00).ringOk ∧ 15 < (ring 16 12 12 0x00).free) ∧ (ring 16 12 12 0x00).cap ≤ 16 := by decide

theorem witness_AdvTailFollowsItsRule :
    State.reset.valid = false ∧ ((ring 16 4 12 0x00).valid = true ∧ (ring 16 4 12 0x00).filled < 9) ∧
    ((ring 16 4 12 0x00).ringOk ∧ 8 ≤ (ring 16 4 12 0x00).filled) ∧ (ring 16 4 12 0x00).cap ≤ 16 := by decide

theorem witness_RingCommandsFrame :
    (∃ s t i n r, i ∈ [Instr.construct n, .destroy, .advHead n, .advTail n] ∧ exec i s = .next t ∧
      t.responses = s.responses ++ [r] ∧ r.status = 0x00 ∧ i = .advHead n) ∧
    (∃ s t i n, i ∈ [Instr.construct n, .destroy, .advHead n, .advTail n] ∧ exec i s = .next t ∧ i = .advTail n) :=
  ⟨⟨ring 16 12 12 0x00, _, .advHead 15, 15, _, by decide, rfl, rfl, rfl, rfl⟩,
    ⟨ring 16 4 12 0x00, _, .advTail 8, 8, by decide, rfl, rfl⟩⟩

theorem witness_AdvancesMoveFilled :
    (ring 16 12 12 0x00).ringOk ∧ (ring 16 12 12 0x00).valid = true ∧ 15 < (ring 16 12 12 0x00).free ∧
    (ring 16 4 12 0x00).ringOk ∧ (ring 16 4 12 0x00).valid = true ∧ 8 ≤ (ring 16 4 12 0x00).filled := by decide

theorem witness_AdvancesQueueTheBytes :
    (ring 16 12 4 0x00).ringOk ∧ (ring 16 12 4 0x00).valid = true ∧ 7 < (ring 16 12 4 0x00).free ∧
      8 ≤ (ring 16 12 4 0x00).filled := by decide

theorem witness_SnapshotsStayGood :
    (ring 8 5 3 0x00).ringOk ∧ (ring 8 5 3 0x00).valid = true ∧ 5 < (ring 8 5 3 0x00).free ∧
      2 ≤ (ring 8 5 3 0x00).filled := by decide

theorem witness_CopyChecksItsRegions :
    (1 ≤ 64 ∧ State.reset.cfg.memBytes < 0xFFC1 + 64) ∧ (1 ≤ 2 ∧ State.reset.cfg.memBytes < 0xFFFF + 2) ∧
    (1 ≤ 4 ∧ 0x0100 + 4 ≤ State.reset.cfg.memBytes ∧ 0x0103 + 4 ≤ State.reset.cfg.memBytes ∧ 0x0103 < 0x0100 + 4 ∧
      0x0100 < 0x0103 + 4) ∧
    (0x0100 + 4 ≤ State.reset.cfg.memBytes ∧ 0x0104 + 4 ≤ State.reset.cfg.memBytes ∧ 0x0100 + 4 ≤ 0x0104) := by decide

/-- The premises of a `COPY` past its checks: touching regions, either way round, and the last byte of `MEM`. -/
theorem witness_CopyMovesTheBytes :
    (1 ≤ 4 ∧ 0x0100 + 4 ≤ State.reset.cfg.memBytes ∧ 0x0104 + 4 ≤ State.reset.cfg.memBytes ∧ 0x0100 + 4 ≤ 0x0104) ∧
    (1 ≤ 4 ∧ 0x0104 + 4 ≤ State.reset.cfg.memBytes ∧ 0x0100 + 4 ≤ State.reset.cfg.memBytes ∧ 0x0100 + 4 ≤ 0x0104) ∧
    (1 ≤ 1 ∧ 0x0000 + 1 ≤ State.reset.cfg.memBytes ∧ 0xFFFF + 1 ≤ State.reset.cfg.memBytes ∧ 0x0000 + 1 ≤ 0xFFFF)
    := by decide

theorem witness_ScheduleFollowsTheLoop : 1 ≤ 64 ∧ 64 ≤ 64 ∧ 63 < 64 := by decide

theorem witness_ScheduleClosedForm : (schedule (widthsPresent .v512) 127)[7]? = some 1 := by decide

theorem witness_BeatsFollowTheSchedule :
    1 ≤ 0x7FFF ∧ 0 + 0x7FFF ≤ State.reset.cfg.memBytes ∧ 0x7FFF + 0x7FFF ≤ State.reset.cfg.memBytes ∧
      0 + 0x7FFF ≤ 0x7FFF ∧
    { kind := .read, addr := 0x0100, data := [0xA5] } ∈
      plannedBeats State.reset.mem 0x0200 0x0100 0 (schedule (widthsPresent State.reset.cfg.vlen) 1) := by decide

theorem witness_EachByteIsMovedOnce :
    1 ≤ 0x8000 ∧ 0 + 0x8000 ≤ State.reset.cfg.memBytes ∧ 0x8000 + 0x8000 ≤ State.reset.cfg.memBytes ∧
      0 + 0x8000 ≤ 0x8000 := by decide

theorem witness_CopyDoesNotShowVlen : dataVector.mem.wf := by decide

theorem witness_ControllerIgnoresMemory : Instr.opcode (.advHead 3) ≠ .copy ∧ Instr.opcode .status ≠ .copy := by decide

/-- A chunk of 64 bytes with nothing left over, and one of 4 with 3 left; then a `COPY` past its checks with a beat. -/
theorem witness_StagingLanesAreLittleEndian :
    (tierWidth (datapathStart .v512 64 0 Memory.blank).tier = some 64 ∧ 64 ≤ (datapathStart .v512 64 0 Memory.blank).rem) ∧
    (tierWidth (datapathRun 0x0201 0x0100 4 (datapathStart .v512 7 0xFF dataVector.mem)).tier = some 4 ∧
      4 ≤ (datapathRun 0x0201 0x0100 4 (datapathStart .v512 7 0xFF dataVector.mem)).rem) ∧
    (1 ≤ 7 ∧ 0x0100 + 7 ≤ dataVector.cfg.memBytes ∧ 0x0107 + 7 ≤ dataVector.cfg.memBytes ∧ 0x0100 + 7 ≤ 0x0107) ∧
    ∃ b ∈ plannedBeats dataVector.mem 0x0201 0x0100 0 [4, 1, 1, 1], b.kind = .write ∧ b.data[3]? = some 0x18 := by decide

theorem witness_EveryCommandIsAnsweredOnce :
    (given State.reset (.command 0xFF)).cfg.valid ∧ (given State.reset (.command 0xFF)).inputs = [.command 0xFF] := by
  decide

/-- A command word pending, and one whose response has a status other than `OK`. -/
theorem witness_FaultsAreDeliveredInTheResponse :
    ∃ (s t : State) (w : Nat) (rest : List Input) (r : Response), s.cfg.valid ∧ s.inputs = .command w :: rest ∧
      step s = .next t ∧ t.responses = s.responses ++ [r] ∧ r.status ≠ 0x00 :=
  ⟨given (ring 8 5 3 0x00) (.command 0x00000000_00000000_00000006_20), _, _, _, ⟨0x20, 0x06, 6⟩,
    by decide, rfl, rfl, rfl, by decide⟩

theorem witness_ErrHoldsTheFirstFault :
    (∃ (s t : State) (w : Nat) (rest : List Input) (r : Response), s.cfg.valid ∧ s.inputs = .command w :: rest ∧
      step s = .next t ∧ t.responses = s.responses ++ [r] ∧ r.status = 0x00) ∧
    (∃ (s t : State) (w : Nat) (rest : List Input) (r : Response), s.cfg.valid ∧ s.inputs = .command w :: rest ∧
      step s = .next t ∧ t.responses = s.responses ++ [r] ∧ r.status ≠ 0x00 ∧ s.err = 0x00) ∧
    (∃ (s t : State) (w : Nat) (rest : List Input) (r : Response), s.cfg.valid ∧ s.inputs = .command w :: rest ∧
      step s = .next t ∧ t.responses = s.responses ++ [r] ∧ r.status ≠ 0x00 ∧ s.err ≠ 0x00) ∧
    (∃ s t : State, step s = .next t ∧ s.err ≠ 0x00 ∧ t.err = 0x00) :=
  ⟨⟨given (ring 8 5 3 0x00) (.command 0x5_20), _, _, _, ⟨0x20, 0x00, 2⟩, by decide, rfl, rfl, rfl, rfl⟩,
    ⟨given (ring 8 5 3 0x00) (.command 0x6_20), _, _, _, ⟨0x20, 0x06, 6⟩, by decide, rfl, rfl, rfl, by decide, rfl⟩,
    ⟨given (ring 8 5 3 0x02) (.command 0x6_20), _, _, _, ⟨0x20, 0x06, 6⟩, by decide, rfl, rfl, rfl, by decide,
      by decide⟩,
    ⟨given (ring 8 5 3 0x02) .reset, _, rfl, by decide, rfl⟩⟩

theorem witness_FaultsHaveNoSideEffects :
    ∃ (s t : State) (w : Nat) (rest : List Input) (r : Response), s.cfg.valid ∧ s.inputs = .command w :: rest ∧
      step s = .next t ∧ t.responses = s.responses ++ [r] ∧ r.status ≠ 0x00 :=
  ⟨given dataVector (.command 0x00000004_00000100_00000103_30), _, _, _, ⟨0x30, 0x09, 0x0103⟩,
    by decide, rfl, rfl, rfl, by decide⟩

theorem witness_TheFirstCauseIsRaised :
    ∃ (s t : State) (w : Nat) (rest : List Input) (r : Response), s.cfg.valid ∧ s.inputs = .command w :: rest ∧
      step s = .next t ∧ t.responses = s.responses ++ [r] :=
  ⟨given State.reset (.command 0x1_11), _, _, _, ⟨0x11, 0x01, 1⟩, by decide, rfl, rfl, rfl⟩

theorem witness_FaultsOfEachCommand :
    (∃ (s t : State) (w : Nat) (rest : List Input) (r : Response), s.cfg.valid ∧ s.inputs = .command w :: rest ∧
      step s = .next t ∧ t.responses = s.responses ++ [r] ∧ r.op = 0x03) ∧
    (∃ (s t : State) (w : Nat) (rest : List Input) (r : Response), s.cfg.valid ∧ s.inputs = .command w :: rest ∧
      step s = .next t ∧ t.responses = s.responses ++ [r] ∧ r.op = 0x30) ∧
    (∃ (s t : State) (w : Nat) (rest : List Input) (r : Response), s.cfg.valid ∧ s.inputs = .command w :: rest ∧
      step s = .next t ∧ t.responses = s.responses ++ [r] ∧ r.op = 0x01) ∧
    (∃ (s t : State) (w : Nat) (rest : List Input) (r : Response) (i : Instr), s.cfg.valid ∧
      s.inputs = .command w :: rest ∧ step s = .next t ∧ t.responses = s.responses ++ [r] ∧ 0x10 ≤ r.op.toNat ∧
      r.op.toNat ≤ 0x17 ∧ s.valid = true ∧ decode s.cfg.xlen w = .ok i) ∧
    (∃ (s t : State) (r : Response), exec (.advHead 6) s = .next t ∧ t.responses = s.responses ++ [r] ∧
      s.valid = true) ∧
    (∃ (s t : State) (r : Response), exec (.advTail 3) s = .next t ∧ t.responses = s.responses ++ [r] ∧
      s.valid = true) ∧
    (∃ (s t : State) (r : Response), exec (.copy 0xFFFF 0 2) s = .next t ∧ t.responses = s.responses ++ [r] ∧
      s.valid = true) :=
  ⟨⟨given State.reset (.command 0x03), _, _, _, ⟨0x03, 0x00, 0⟩, by decide, rfl, rfl, rfl, rfl⟩,
    ⟨given State.reset (.command 0x30), _, _, _, ⟨0x30, 0x00, 0⟩, by decide, rfl, rfl, rfl, rfl⟩,
    ⟨given State.reset (.command 0x01), _, _, _, ⟨0x01, 0x02, 0⟩, by decide, rfl, rfl, rfl, rfl⟩,
    ⟨given (ring 8 2 3 0x00) (.command 0x17), _, _, _, ⟨0x17, 0x00, 3⟩, .nextTail 0, by decide, rfl, rfl, rfl,
      by decide, by decide, rfl, rfl⟩,
    ⟨ring 8 5 3 0x00, _, ⟨0x20, 0x06, 6⟩, rfl, rfl, rfl⟩,
    ⟨ring 8 5 3 0x00, _, ⟨0x21, 0x07, 3⟩, rfl, rfl, rfl⟩,
    ⟨ring 8 5 3 0x00, _, ⟨0x30, 0x08, 0xFFFF⟩, rfl, rfl, rfl⟩⟩

theorem witness_ErrDoesNotAffectExecution : Instr.advHead 6 ≠ .status ∧ Instr.copy 0 1 1 ≠ .status := by decide

theorem witness_FailedConstructIsNotFatal :
    (State.reset.valid = false ∧ (0x1001 = 0 ∨ State.reset.cfg.storageBytes < 0x1001) ∧ 1 ≤ 0x1000 ∧
      0x1000 ≤ State.reset.cfg.storageBytes) ∧ (0 = 0 ∨ State.reset.cfg.storageBytes < 0) := by decide

theorem witness_ValidChangesOnlyAsItsRuleSays :
    (∃ s t : State, step s = .next t ∧ s.valid = false ∧ t.valid = true) ∧
    (∃ s t : State, step s = .next t ∧ s.valid = true ∧ t.valid = false) :=
  ⟨⟨given State.reset (.command 0x10_01), _, rfl, rfl, rfl⟩, ⟨given (ring 16 4 12 0x00) (.command 0x02), _, rfl, rfl, rfl⟩⟩

theorem witness_RegistersMoveOnlyByTheirCommand :
    (∃ s t : State, step s = .next t ∧ s.Inv ∧ s.valid = true ∧ t.valid = true ∧ t.head ≠ s.head) ∧
    (∃ s t : State, step s = .next t ∧ s.Inv ∧ s.valid = true ∧ t.valid = true ∧ t.tail ≠ s.tail) ∧
    (∃ s t : State, step s = .next t ∧ s.Inv ∧ t.valid = false) :=
  ⟨⟨given (ring 16 12 12 0x00) (.command 0xF_20), _, rfl, by decide, rfl, rfl, by decide⟩,
    ⟨given (ring 16 4 12 0x00) (.command 0x8_21), _, rfl, by decide, rfl, rfl, by decide⟩,
    ⟨given (ring 16 4 12 0x00) .reset, _, rfl, by decide, rfl⟩⟩

theorem witness_ResetMeetsTheInvariant :
    Config.ref.valid ∧ Memory.blank.wf ∧ Memory.blank.inside Config.ref.memBytes ∧
      dataVector.mem.wf ∧ dataVector.mem.inside Config.ref.memBytes := by decide

theorem witness_EveryStepKeepsTheInvariant :
    (∃ s t : State, s.Inv ∧ step s = .next t ∧ t.mem ≠ s.mem) ∧
    (∃ s t : State, s.Inv ∧ step s = .next t ∧ t.head ≠ s.head) :=
  ⟨⟨given dataVector (.command 0x00000001_00000100_00000201_30), _, by decide, rfl, by decide⟩,
    ⟨given (ring 16 12 12 0x00) (.command 0xF_20), _, by decide, rfl, by decide⟩⟩

theorem witness_RingInvariantsHold :
    (∃ s t : State, s.Inv ∧ step s = .next t ∧ t.valid = true ∧ s.valid = false) ∧
    (∃ s t : State, s.Inv ∧ step s = .next t ∧ t.valid = true ∧ s.valid = true) :=
  ⟨⟨given State.reset (.command 0x1000_01), _, by decide, rfl, rfl, rfl⟩,
    ⟨given (ring 16 11 12 0x00) (.command 0x1_20), _, by decide, rfl, rfl, rfl⟩⟩

theorem witness_RegionsPartitionTheRing :
    ((ring 8 2 3 0x00).ringOk ∧ (ring 8 2 3 0x00).valid = true) ∧
      ((ring 1 0 0 0x00).ringOk ∧ (ring 1 0 0 0x00).valid = true ∧ (ring 1 0 0 0x00).cap = 1) := by decide

theorem witness_ResetSetsTheRegisters :
    ((given (ring 8 2 3 0x06) .reset).cfg.valid ∧ (given (ring 8 2 3 0x06) .reset).inputs = [.reset]) ∧
      (ring 8 2 3 0x06).valid = true ∧ ∃ s t : State, step s = .next t ∧ t.err ≠ s.err :=
  ⟨by decide, rfl, given (ring 8 2 3 0x06) .reset, _, rfl, by decide⟩

theorem witness_ResetAbandonsACommand :
    (∃ (s : State) (w : Nat) (landed : List Nat) (issued : Nat) (rest : List Input) (dst src size : Nat), s.cfg.valid ∧
      s.inputs = .resetDuring w landed issued :: rest ∧ decode s.cfg.xlen w = .ok (.copy dst src size) ∧ 1 ≤ size ∧
      src + size ≤ s.cfg.memBytes ∧ dst + size ≤ s.cfg.memBytes ∧ (src + size ≤ dst ∨ dst + size ≤ src)) ∧
    (∃ (s : State) (w : Nat) (landed : List Nat) (issued : Nat) (rest : List Input), s.cfg.valid ∧
      s.inputs = .resetDuring w landed issued :: rest ∧ decode s.cfg.xlen w = .ok (.advHead 8)) ∧
    (∃ (s : State) (w : Nat) (landed : List Nat) (issued : Nat) (rest : List Input) (dst src size : Nat), s.cfg.valid ∧
      s.inputs = .resetDuring w landed issued :: rest ∧ decode s.cfg.xlen w = .ok (.copy dst src size) ∧
      ¬ (1 ≤ size ∧ src + size ≤ s.cfg.memBytes ∧ dst + size ≤ s.cfg.memBytes ∧
        (src + size ≤ dst ∨ dst + size ≤ src))) :=
  ⟨⟨given dataVector (.resetDuring 0x00000007_00000100_00000201_30 [0, 6] 3), _, _, _, _, 0x0201, 0x0100, 7, by decide,
      rfl, rfl, by decide⟩,
    ⟨given (ring 16 0 0 0x00) (.resetDuring 0x8_20 [] 0), _, _, _, _, by decide, rfl, rfl⟩,
    ⟨given dataVector (.resetDuring 0x00000004_00000100_00000103_30 [0] 1), _, _, _, _, 0x0103, 0x0100, 4, by decide, rfl,
      rfl, by decide⟩⟩

theorem witness_HostAccessesMemory :
    ((given State.reset (.hostWrite 0xFFFF 7)).cfg.valid ∧ 0xFFFF < State.reset.cfg.memBytes ∧
      State.reset.cfg.memBytes ≤ 0x10000) ∧
    (∃ (s : State) (w : Nat) (seen ends reads : List Host.Cell) (rest : List Input) (dst src size : Nat), s.cfg.valid ∧
      s.inputs = .racedCopy w seen ends reads :: rest ∧ decode s.cfg.xlen w = .ok (.copy dst src size) ∧ 1 ≤ size ∧
      src + size ≤ s.cfg.memBytes ∧ dst + size ≤ s.cfg.memBytes ∧ (src + size ≤ dst ∨ dst + size ≤ src)) :=
  ⟨by decide,
    ⟨given dataVector (.racedCopy 0x00000007_00000100_00000201_30 [(0x0104, 0x55)] [(0x0203, 0x77)] [(0x0104, 0x1F)]), _, _,
      _, _, _, 0x0201, 0x0100, 7, by decide, rfl, rfl, by decide⟩⟩

theorem witness_EqualMemoriesAreEqualData :
    ((Memory.blank.write 5 1).write 3 2).wf ∧ ((Memory.blank.write 3 2).write 5 1).wf := by decide

theorem witness_BootBeginsWithConstruct :
    opcodeNeedsRing (Instr.opcode (.advTail 0)) = true ∧ (1 ≤ 0x1000 ∧ 0x1000 ≤ Config.ref.storageBytes) ∧
      (1 ≤ 8 ∧ 0x0100 + 8 ≤ Config.ref.memBytes ∧ 0x0400 + 8 ≤ Config.ref.memBytes ∧ 0x0100 + 8 ≤ 0x0400) := by decide

theorem witness_CopyIntoTheFreeRunKeepsTheRing :
    (ring 16 12 12 0x00).cfg.valid ∧ (ring 16 12 12 0x00).ringOk ∧ (ring 16 12 12 0x00).valid = true ∧
    (ring 16 12 12 0x00).copyIntoRing 4 0x8000 11 ∧ (ring 16 12 12 0x00).copyIntoRing 0 0x800C 4 ∧ 1 ≤ 11 ∧
      0x0104 + 11 ≤ (ring 16 12 12 0x00).cfg.memBytes ∧ 0x0104 + 11 ≤ 0x8000 := by decide

theorem witness_WriteThenReadReturnsTheBytes :
    (ring 16 12 12 0x00).Inv ∧ (ring 16 12 12 0x00).valid = true ∧
      (ring 16 12 12 0x00).head = (ring 16 12 12 0x00).tail ∧ 15 + 1 ≤ (ring 16 12 12 0x00).free ∧
      (ring 16 12 12 0x00).bufferOk 0x7FF1 15 ∧ (ring 16 12 12 0x00).bufferOk 0x8010 15 := by decide

end Sys2Proof.Tests
end

section
/-! PROOFS. The commands other than `COPY` and `MEM` (00_scope.md R1): each raises a fault or changes ring registers,
and both are the same over any other memory. -/

namespace Sys2Proof.Machine

/-- A command other than `COPY` that succeeds changes `VALID`, `CAP`, `HEAD` and `TAIL` at most. -/
theorem succeeds_eq_setRing {s u : State} {i : Instr} {v : Nat} (hi : i.opcode ≠ .copy) (h : Succeeds s i u v) :
    u = s.setRing u.valid u.cap u.head u.tail := by
  cases i with
  | construct n =>
    obtain ⟨-, -, -, rfl, -⟩ := h
    rfl
  | status =>
    obtain ⟨rfl, -⟩ := h
    rfl
  | advHead n | advTail n =>
    obtain ⟨-, -, rfl, -⟩ := h
    rfl
  | copy dst src size => exact absurd rfl hi
  | destroy | isEmpty | filled | free | capacity | headToEnd | tailToEnd | nextHead k | nextTail k =>
    obtain ⟨-, rfl, -⟩ := h
    rfl

/-- No check of a command looks at `MEM`. -/
theorem raises_setMem (s : State) (m : Memory) (i : Instr) (f : FaultCode) :
    Raises (s.setMem m) i f ↔ Raises s i f := by
  cases i <;> exact Iff.rfl

/-- Over any other memory a command other than `COPY` has the same effect and the same answer. -/
theorem succeeds_setMem {s u : State} {i : Instr} {v : Nat} (hi : i.opcode ≠ .copy) (h : Succeeds s i u v)
    (m : Memory) : Succeeds (s.setMem m) i (u.setMem m) v := by
  cases i with
  | construct n =>
    obtain ⟨hv, h0, hn, rfl, rfl⟩ := h
    exact ⟨hv, h0, hn, rfl, rfl⟩
  | status =>
    obtain ⟨rfl, rfl⟩ := h
    exact ⟨rfl, rfl⟩
  | advHead n | advTail n =>
    obtain ⟨hv, hn, rfl, rfl⟩ := h
    exact ⟨hv, hn, rfl, rfl⟩
  | copy dst src size => exact absurd rfl hi
  | destroy | isEmpty | filled | free | capacity | headToEnd | tailToEnd | nextHead k | nextTail k =>
    obtain ⟨hv, rfl, rfl⟩ := h
    exact ⟨hv, rfl, rfl⟩

/-- Settles O38: a fault keeps `MEM` and the beats and so does a change of ring registers, and neither the checks nor
the effects see the memory. -/
theorem controllerIgnoresMemory : Obligations.ControllerIgnoresMemory := by
  intro i s m hi
  rcases exec_cases i s with ⟨f, hf, he⟩ | ⟨u, v, hu, he⟩
  · exact ⟨_, he, rfl, rfl, exec_of_raises ((raises_setMem s m i f).2 hf)⟩
  · have hring := succeeds_eq_setRing hi hu
    have hmem : u.mem = s.mem := by rw [hring, State.mem_setRing]
    have hbeats : u.beats = s.beats := by rw [hring, State.beats_setRing]
    exact ⟨_, he, hmem, hbeats, exec_of_succeeds (succeeds_setMem hi hu m)⟩

end Sys2Proof.Machine
end

section
/-! PROOFS. The invariant of the machine: it holds after reset, and each operation that a step is made of keeps it. -/

namespace Sys2Proof.Machine

/-! ### The ring registers -/

/-- Every successful command keeps the ranges of `CAP`, `HEAD` and `TAIL` (10_state.md R12 to R14). -/
theorem succeeds_ringOk {s u : State} {i : Instr} {v : Nat} (hs : s.ringOk) (h : Succeeds s i u v) : u.ringOk := by
  cases i with
  | construct n =>
    obtain ⟨-, h0, hn, rfl, -⟩ := h
    exact ⟨fun _ => ⟨Nat.pos_of_ne_zero h0, hn, Nat.pos_of_ne_zero h0, Nat.pos_of_ne_zero h0⟩, nofun⟩
  | destroy =>
    obtain ⟨-, rfl, -⟩ := h
    exact ⟨nofun, fun _ => ⟨rfl, rfl, rfl⟩⟩
  | advHead n =>
    obtain ⟨hv, -, rfl, -⟩ := h
    obtain ⟨h1, hn, -, ht⟩ := s.ringOk_valid hs hv
    exact ⟨fun _ => ⟨h1, hn, s.wrap_lt hs hv _ _, ht⟩, fun hf => absurd (hv.symm.trans hf) nofun⟩
  | advTail n =>
    obtain ⟨hv, -, rfl, -⟩ := h
    obtain ⟨h1, hn, hh, -⟩ := s.ringOk_valid hs hv
    exact ⟨fun _ => ⟨h1, hn, hh, s.wrap_lt hs hv _ _⟩, fun hf => absurd (hv.symm.trans hf) nofun⟩
  | copy dst src size => rcases h with ⟨-, rfl, -⟩ | ⟨-, -, -, rfl, -⟩ <;> exact hs
  | status =>
    obtain ⟨rfl, -⟩ := h
    exact hs
  | isEmpty | filled | free | capacity | headToEnd | tailToEnd | nextHead k | nextTail k =>
    obtain ⟨-, rfl, -⟩ := h
    exact hs

/-- Every command, faulting or not, keeps the ranges. -/
theorem exec_ringOk {s t : State} {i : Instr} (hs : s.ringOk) (h : exec i s = .next t) : t.ringOk := by
  rcases exec_cases i s with ⟨f, -, he⟩ | ⟨u, v, hu, he⟩
  · obtain rfl := Host.Outcome.next.inj (he.symm.trans h)
    exact hs
  · obtain rfl := Host.Outcome.next.inj (he.symm.trans h)
    have hring : u.ringOk := succeeds_ringOk hs hu
    exact hring

/-! ### What the answers fit in -/

/-- What is at most `STORAGE_BYTES` fits in `XLEN` bits (00_scope.md R5). -/
theorem lt_two_pow_of_le_storageBytes {c : Config} (hc : c.valid) {n : Nat} (h : n ≤ c.storageBytes) :
    n < 2 ^ c.xlen.bits := by
  obtain ⟨-, -, -, h1, h2⟩ := hc
  omega

/-- `XLEN` is at least 16. -/
theorem two_pow_sixteen_le (x : XLen) : 2 ^ 16 ≤ 2 ^ x.bits := by
  cases x <;> decide

theorem boolWord_le_one (b : Bool) : boolWord b ≤ 1 := by
  cases b <;> decide

/-- While `VALID = 1`, whatever is at most `CAP` fits in `XLEN` bits. -/
theorem State.lt_of_le_cap {s : State} (hc : s.cfg.valid) (hr : s.ringOk) (hv : s.valid = true) {n : Nat}
    (h : n ≤ s.cap) : n < 2 ^ s.cfg.xlen.bits :=
  lt_two_pow_of_le_storageBytes hc (h.trans (s.ringOk_valid hr hv).2.1)

/-- Every answer of a well-formed command fits in `XLEN` bits (30_encoding.md R52). -/
theorem succeeds_value_lt {s u : State} {i : Instr} {v : Nat} (hs : s.Inv) (hi : i.wf s.cfg.xlen = true)
    (h : Succeeds s i u v) : v < 2 ^ s.cfg.xlen.bits := by
  obtain ⟨hc, hr, he, -, -⟩ := hs
  have h16 := two_pow_sixteen_le s.cfg.xlen
  cases i with
  | construct n =>
    obtain ⟨-, -, hn, -, rfl⟩ := h
    exact lt_two_pow_of_le_storageBytes hc hn
  | destroy =>
    obtain ⟨-, -, rfl⟩ := h
    omega
  | status =>
    obtain ⟨-, rfl⟩ := h
    have hb := boolWord_le_one s.valid
    unfold statusWord
    omega
  | isEmpty =>
    obtain ⟨-, -, rfl⟩ := h
    have hb := boolWord_le_one s.isEmpty
    omega
  | filled =>
    obtain ⟨hv, -, rfl⟩ := h
    exact s.lt_of_le_cap hc hr hv (s.filled_lt hr hv).le
  | capacity =>
    obtain ⟨hv, -, rfl⟩ := h
    exact s.lt_of_le_cap hc hr hv le_rfl
  | free | headToEnd | tailToEnd =>
    obtain ⟨hv, -, rfl⟩ := h
    exact s.lt_of_le_cap hc hr hv (Nat.sub_le _ _)
  | nextHead k | nextTail k =>
    obtain ⟨hv, -, rfl⟩ := h
    exact s.lt_of_le_cap hc hr hv (s.wrap_lt hr hv _ _).le
  | advHead n | advTail n =>
    obtain ⟨hv, -, -, rfl⟩ := h
    exact s.lt_of_le_cap hc hr hv (s.wrap_lt hr hv _ _).le
  | copy dst src size =>
    simp only [Instr.wf, Bool.and_eq_true, Word.fits_iff] at hi
    rcases h with ⟨-, -, rfl⟩ | ⟨-, -, -, -, rfl⟩ <;> exact hi.1.1

/-! ### The operations on the state -/

theorem State.Inv.ringOk {s : State} (h : s.Inv) : s.ringOk := h.2.1
theorem State.Inv.memOk {s : State} (h : s.Inv) : s.memOk := h.2.2.2.1

/-- `ERR` after a fault is again 0x00 or a fault code (10_state.md R22). -/
theorem errAfter_le {e : Byte} (h : e.toNat ≤ 9) (f : FaultCode) : (errAfter e (faultCode f)).toNat ≤ 9 := by
  unfold errAfter
  split
  · exact faultCode_le f
  · exact h

/-- A legal response is recorded. -/
theorem State.responses_legal_append {s : State} (h : s.portsOk) {r : Response} (hr : responseLegal s.cfg.xlen r) :
    ∀ q ∈ s.responses ++ [r], responseLegal s.cfg.xlen q := by
  intro q hq
  rcases List.mem_append.1 hq with hq | hq
  · exact h.1 q hq
  · rw [List.mem_singleton.1 hq]
    exact hr

theorem State.inv_respond {s : State} (h : s.Inv) (op : Byte) {v : Nat} (hv : v < 2 ^ s.cfg.xlen.bits) :
    (s.respond op v).Inv := by
  obtain ⟨hc, hr, he, hm, hp⟩ := h
  exact ⟨hc, hr, he, hm, s.responses_legal_append hp ⟨Nat.zero_le 9, hv⟩, hp.2⟩

theorem State.inv_raise {s : State} (h : s.Inv) (op : Byte) (f : FaultCode) {a : Nat}
    (ha : a < 2 ^ s.cfg.xlen.bits) : (s.raise op f a).Inv := by
  obtain ⟨hc, hr, he, hm, hp⟩ := h
  exact ⟨hc, hr, errAfter_le he f, hm, s.responses_legal_append hp ⟨faultCode_le f, ha⟩, hp.2⟩

theorem State.inv_setRing {s : State} (h : s.Inv) {v : Bool} {c hd tl : Nat} (hr : (s.setRing v c hd tl).ringOk) :
    (s.setRing v c hd tl).Inv := by
  obtain ⟨hc, -, hrest⟩ := h
  exact ⟨hc, hr, hrest⟩

theorem State.inv_setMem {s : State} (h : s.Inv) {m : Memory} (hw : m.wf) (hi : m.inside s.cfg.memBytes) :
    (s.setMem m).Inv := by
  obtain ⟨hc, hr, he, -, hp⟩ := h
  exact ⟨hc, hr, he, ⟨hw, hi⟩, hp⟩

theorem State.inv_recordBeats {s : State} (h : s.Inv) {bs : List Beat} (hbs : ∀ b ∈ bs, beatLegal s.cfg b) :
    (s.recordBeats bs).Inv := by
  obtain ⟨hc, hr, he, hm, hresp, hbeat, hread⟩ := h
  exact ⟨hc, hr, he, hm, hresp, List.forall_mem_append.2 ⟨hbeat, hbs⟩, hread⟩

theorem State.inv_recordHostReads {s : State} (h : s.Inv) {ps : List Host.Cell}
    (hps : ∀ p ∈ ps, p.1 < s.cfg.memBytes) : (s.recordHostReads ps).Inv := by
  obtain ⟨hc, hr, he, hm, hresp, hbeat, hread⟩ := h
  exact ⟨hc, hr, he, hm, hresp, hbeat, List.forall_mem_append.2 ⟨hread, hps⟩⟩

theorem State.inv_resetRegisters {s : State} (h : s.Inv) : s.resetRegisters.Inv := by
  obtain ⟨hc, -, -, hm, hp⟩ := h
  exact ⟨hc, ⟨nofun, fun _ => ⟨rfl, rfl, rfl⟩⟩, Nat.zero_le 9, hm, hp⟩

/-! ### The commands -/

/-- `COPY` is the one instruction of its opcode. -/
theorem exists_of_opcode_copy {i : Instr} (h : i.opcode = .copy) : ∃ dst src size, i = .copy dst src size := by
  cases i <;> cases h
  exact ⟨_, _, _, rfl⟩

/-- A whole copy keeps the canonical form of `MEM`. -/
theorem copyMove_wf {m : Memory} (h : m.wf) (v : VLen) (dst src size : Nat) : (copyMove v dst src size m).1.wf :=
  moveChunks_wf h dst src _ 0

/-- A whole copy into a region of `MEM` lists only addresses of `MEM`. -/
theorem copyMove_inside {m : Memory} {n : Nat} (h : m.inside n) (v : VLen) {dst size : Nat} (src : Nat)
    (hd : dst + size ≤ n) : (copyMove v dst src size m).1.inside n :=
  moveChunks_inside h dst src _ 0 (by simpa using hd)

theorem succeeds_inv {s u : State} {i : Instr} {v : Nat} (hs : s.Inv) (h : Succeeds s i u v) : u.Inv := by
  by_cases hi : i.opcode = .copy
  · obtain ⟨dst, src, size, rfl⟩ := exists_of_opcode_copy hi
    obtain ⟨hw, hin⟩ := hs.memOk
    rcases h with ⟨-, rfl, -⟩ | ⟨-, hb, -, rfl, -⟩
    · exact hs
    · exact State.inv_recordBeats
        (State.inv_setMem hs (copyMove_wf hw _ dst src size) (copyMove_inside hin _ src hb.2))
        fun _ => copyMove_beat_legal hb
  · have hr := succeeds_ringOk hs.ringOk h
    rw [succeeds_eq_setRing hi h] at hr ⊢
    exact State.inv_setRing hs hr

/-- A command word, legal or not, keeps the invariant. -/
theorem takeCommand_inv {s t : State} {w : Nat} (hs : s.Inv) (h : takeCommand w s = .next t) : t.Inv := by
  have ha : w / 2 ^ 8 % 2 ^ s.cfg.xlen.bits < 2 ^ s.cfg.xlen.bits := Nat.mod_lt _ (by positivity)
  rcases takeCommand_cases w s with ⟨e, -, he⟩ | ⟨i, f, -, -, he⟩ | ⟨i, u, v, hd, hu, he⟩ <;>
    obtain rfl := Host.Outcome.next.inj (he.symm.trans h)
  · exact State.inv_raise hs _ _ ha
  · exact State.inv_raise hs _ _ ha
  · have hv := succeeds_value_lt hs (wf_of_decode hd) hu
    rw [← (succeeds_frame hu).1] at hv
    exact State.inv_respond (succeeds_inv hs hu) _ hv

/-! ### Reset in mid-command and the raced `COPY` -/

/-- What an abandoned command leaves in `MEM` (70_reset_and_hazards.md R151). -/
theorem abandonedMem_memOk {s : State} (h : s.memOk) (w : Nat) (landed : List Nat) :
    (abandonedMem w landed s).wf ∧ (abandonedMem w landed s).inside s.cfg.memBytes := by
  obtain ⟨hw, hin⟩ := h
  unfold abandonedMem
  split
  · split
    · rename_i dst src size _ hm
      have hd := ((copyMoves_iff _ _ _ _).1 hm).2.1.2
      exact ⟨copyLanded_wf hw _ _ _ _, copyLanded_inside hin hd _ _⟩
    · exact ⟨hw, hin⟩
  · exact ⟨hw, hin⟩

/-- A raced copy: its beats are those of its schedule, and the race stays in the two regions (R154). -/
theorem State.inv_raced {s : State} (hs : s.Inv) {dst src size : Nat} (hdst : dst < 2 ^ s.cfg.xlen.bits)
    (hm : copyMoves s.cfg dst src size = true) (seen ends reads : List Host.Cell) :
    (s.raced dst src size seen ends reads).Inv := by
  obtain ⟨-, ⟨hsrcIn, hdstIn⟩, -⟩ := (copyMoves_iff _ _ _ _).1 hm
  obtain ⟨hw, hin⟩ := hs.memOk
  have hseenWf := racedMem_wf hw dst src size seen
  have hseenIn := racedMem_inside hin hdstIn hsrcIn seen
  have hmem := State.inv_setMem hs (racedMem_wf (copyMove_wf hseenWf s.cfg.vlen dst src size) dst src size ends)
    (racedMem_inside (copyMove_inside hseenIn s.cfg.vlen src hdstIn) hdstIn hsrcIn ends)
  have hbeats := State.inv_recordBeats hmem fun b => copyMove_beat_legal (m := racedMem dst src size s.mem seen)
    (dst := dst) (src := src) (size := size) ⟨hsrcIn, hdstIn⟩
  refine State.inv_respond (State.inv_recordHostReads hbeats fun p hp => ?_) _ hdst
  have hp := (inCopyRegions_iff _ _ _ _).1 (List.mem_filter.1 hp).2
  simp only [State.cfg_recordBeats, State.cfg_setMem]
  omega

/-! ### The statements -/

/-- Settles O51: each event is a composition of operations that keep the invariant. -/
theorem everyStepKeepsTheInvariant : Obligations.EveryStepKeepsTheInvariant := by
  intro s t hs h
  have hs' (rest : List Input) : (s.setInputs rest).Inv := hs
  have hmem : s.memOk := hs.memOk
  obtain ⟨-, hcases⟩ := step_cases h
  rcases hcases with ⟨-, rfl⟩ | ⟨w, rest, -, ht⟩ | ⟨rest, -, rfl⟩ | ⟨w, landed, issued, rest, -, rfl⟩ |
    ⟨a, v, rest, -, ha, rfl⟩ | ⟨a, rest, -, ha, rfl⟩ | ⟨w, seen, ends, reads, rest, dst, src, size, -, hd, hm, rfl⟩
  · exact hs
  · exact takeCommand_inv (hs' rest) ht
  · exact State.inv_resetRegisters (hs' rest)
  · obtain ⟨hw, hin⟩ := abandonedMem_memOk (s := s.setInputs rest) hmem w landed
    exact State.inv_resetRegisters
      (State.inv_recordBeats (State.inv_setMem (hs' rest) hw hin) fun _ => abandonedBeats_legal)
  · exact State.inv_setMem (hs' rest) (Memory.write_wf hmem.1 a v) (Memory.write_inside hmem.2 ha v)
  · exact State.inv_recordHostReads (hs' rest) (by simpa using ha)
  · have hwf := wf_of_decode hd
    simp only [Instr.wf, Bool.and_eq_true, Word.fits_iff] at hwf
    exact State.inv_raced (hs' rest) hwf.1.1 hm seen ends reads

/-- The launch state over a canonical memory inside `MEM` meets the invariant. -/
theorem State.inv_launch {c : Config} {m : Memory} (hc : c.valid) (hw : m.wf) (hin : m.inside c.memBytes) :
    (State.launch c m).Inv :=
  ⟨hc, ⟨nofun, fun _ => ⟨rfl, rfl, rfl⟩⟩, Nat.zero_le 9, ⟨hw, hin⟩, nofun, nofun, nofun⟩

/-- The reference configuration is a legal one (00_scope.md R5). -/
theorem configRef_valid : Config.ref.valid := by decide

/-- Settles O50: `State.reset` is the launch state of the reference configuration over the blank memory. -/
theorem resetMeetsTheInvariant : Obligations.ResetMeetsTheInvariant :=
  ⟨fun _ _ => State.inv_launch, State.inv_launch configRef_valid Memory.blank_wf nofun⟩

end Sys2Proof.Machine
end

section
/-! PROOFS. The positions of the ring: `wrap`, the two regions of 10_state.md R24, and the ring as a queue of bytes. -/

namespace Sys2Proof.Machine

/-! ### `wrap` -/

/-- `wrap` sees its distance modulo `CAP` alone (R19). -/
theorem ringWrap_mod (cap p k : Nat) : ringWrap cap p (k % cap) = ringWrap cap p k := Nat.add_mod_mod p k cap

/-- Settles O20: the distance is first reduced below `cap`, and then one conditional subtraction is enough. -/
theorem wrapIsTheMathematicalOne : Obligations.WrapIsTheMathematicalOne := by
  intro cap p k hp
  have hk : k % cap < cap := Nat.mod_lt k (by omega)
  refine ⟨rfl, (ringWrap_mod cap p k).symm, by omega, ?_, ringWrap_lt (by omega) p k⟩
  rw [← ringWrap_mod]
  exact ringWrap_of_lt hp hk.le

/-- Once round the ring is the position itself. -/
theorem ringWrap_cap {cap p : Nat} (hp : p < cap) : ringWrap cap p cap = p := by
  rw [ringWrap, Nat.add_mod_right, Nat.mod_eq_of_lt hp]

/-- Counting `CAP` positions from any position meets every position once. -/
theorem map_ringWrap_range_perm {cap : Nat} (h : 0 < cap) (p : Nat) :
    ((List.range cap).map (ringWrap cap p)).Perm (List.range cap) := by
  have hinj : ∀ j ∈ List.range cap, ∀ k ∈ List.range cap, ringWrap cap p j = ringWrap cap p k → j = k :=
    fun j hj k hk => ringWrap_inj (List.mem_range.1 hj) (List.mem_range.1 hk)
  have hsub : (List.range cap).map (ringWrap cap p) ⊆ List.range cap :=
    List.forall_mem_map.2 fun j _ => List.mem_range.2 (ringWrap_lt h p j)
  exact (List.subperm_of_subset (List.nodup_range.map_on hinj) hsub).perm_of_length_le (by simp)

/-! ### The two regions -/

/-- The free region follows the filled one: together they count `CAP` positions from `TAIL`. -/
theorem State.filledPositions_append_freePositions {s : State} (h : s.ringOk) (hv : s.valid = true) :
    s.filledPositions ++ s.freePositions = (List.range s.cap).map (s.wrap s.tail) := by
  have hfree : s.freePositions = (List.range s.free).map (fun i => s.wrap s.tail (s.filled + i)) :=
    List.map_congr_left fun i _ => s.wrap_head h hv i
  rw [← s.filled_add_free h hv, List.range_add, List.map_append, List.map_map, hfree]
  rfl

theorem State.one_le_free {s : State} (h : s.ringOk) (hv : s.valid = true) : 1 ≤ s.free := by
  have hlt := s.filled_lt h hv
  have hsum := s.filled_add_free h hv
  omega

/-- The last free position is the one just behind `TAIL`. -/
theorem State.wrap_head_last {s : State} (h : s.ringOk) (hv : s.valid = true) :
    s.wrap s.head (s.free - 1) = s.wrap s.tail (s.cap - 1) := by
  have hfree := s.one_le_free h hv
  rw [s.wrap_head h hv, ← s.filled_add_free h hv, Nat.add_sub_assoc hfree]

/-- The position just behind `TAIL` is never filled: `filled` stops at `CAP - 1` (10_state.md R23). -/
theorem State.last_not_mem_filledPositions {s : State} (h : s.ringOk) (hv : s.valid = true) :
    s.wrap s.tail (s.cap - 1) ∉ s.filledPositions := by
  intro hmem
  obtain ⟨i, hi, heq⟩ := List.mem_map.1 hmem
  have hlt := s.filled_lt h hv
  have hi := List.mem_range.1 hi
  have : i = s.cap - 1 := ringWrap_inj (by omega) (by omega) heq
  omega

/-- `ADV_HEAD`, successful or not, keeps `VALID`, `CAP` and `TAIL` (42_ring_advance.md R100). -/
theorem exec_advHead_frame (n : Nat) (s : State) :
    ∃ t, exec (.advHead n) s = .next t ∧ t.valid = s.valid ∧ t.cap = s.cap ∧ t.tail = s.tail := by
  rcases exec_cases (.advHead n) s with ⟨f, -, he⟩ | ⟨u, v, ⟨-, -, rfl, -⟩, he⟩ <;> exact ⟨_, he, rfl, rfl, rfl⟩

/-- Settles O53: the regions count `CAP` positions from `TAIL`, and the last of them is out of reach of `filled`
before and after an `ADV_HEAD`. -/
theorem regionsPartitionTheRing : Obligations.RegionsPartitionTheRing := by
  intro s h hv
  obtain ⟨hcap, -, -, htail⟩ := s.ringOk_valid h hv
  refine ⟨?_, ?_, fun n => ?_, fun h1 => ?_⟩
  · rw [s.filledPositions_append_freePositions h hv]
    exact map_ringWrap_range_perm hcap s.tail
  · calc s.wrap (s.wrap s.head (s.free - 1)) 1
        = s.wrap (s.wrap s.tail (s.cap - 1)) 1 := by rw [s.wrap_head_last h hv]
      _ = ringWrap s.cap s.tail (s.cap - 1 + 1) := ringWrap_ringWrap ..
      _ = s.tail := by rw [Nat.sub_add_cancel hcap, ringWrap_cap htail]
  · obtain ⟨t, he, hvalid, hc, ht⟩ := exec_advHead_frame n s
    refine ⟨t, he, ?_⟩
    rw [s.wrap_head_last h hv, ← State.wrap_congr s t hc, ← hc, ← ht]
    exact State.last_not_mem_filledPositions (exec_ringOk h he) (hvalid.trans hv)
  · have hzero : s.filled = 0 := by
      have hlt := s.filled_lt h hv
      omega
    simp [State.filledPositions, hzero]

/-! ### The ring as a queue -/

/-- Advancing `HEAD` by `n` bytes below `free` adds `n` to `filled`. -/
theorem State.filled_setHead_wrap {s : State} (h : s.ringOk) (hv : s.valid = true) {n : Nat} (hn : n < s.free) :
    (s.setHead (s.wrap s.head n)).filled = s.filled + n := by
  obtain ⟨-, -, -, htail⟩ := s.ringOk_valid h hv
  have hsum := s.filled_add_free h hv
  rw [s.wrap_head h hv]
  exact ringFilled_ringWrap htail (hsum ▸ Nat.add_lt_add_left hn s.filled)

/-- Advancing `TAIL` by `n` bytes of the filled ones takes `n` from `filled`. -/
theorem State.filled_setTail_wrap {s : State} (h : s.ringOk) (hv : s.valid = true) {n : Nat} (hn : n ≤ s.filled) :
    (s.setTail (s.wrap s.tail n)).filled = s.filled - n := by
  have hlt := s.filled_lt h hv
  have hhead : s.head = s.wrap (s.wrap s.tail n) (s.filled - n) := by
    rw [← s.wrap_tail_filled h hv]
    simp [State.wrap, Nat.add_sub_cancel' hn]
  have := ringFilled_ringWrap (s.wrap_lt h hv s.tail n) (n := s.filled - n) (by omega)
  rw [State.filled, State.head_setTail, hhead]
  exact this

/-- A successful `ADV_HEAD` appends the bytes at the free positions it passes. -/
theorem State.contents_setHead_wrap {s : State} (h : s.ringOk) (hv : s.valid = true) {n : Nat} (hn : n < s.free) :
    (s.setHead (s.wrap s.head n)).contents =
      s.contents ++ (List.range n).map (fun i => s.ringByte (s.wrap s.head i)) := by
  rw [State.contents_eq, State.filled_setHead_wrap h hv hn, List.range_add, List.map_append, List.map_map,
    State.contents_eq]
  congr 1
  exact List.map_congr_left fun i _ => congrArg s.ringByte (s.wrap_head h hv i).symm

/-- A successful `ADV_TAIL` drops the oldest bytes. -/
theorem State.contents_setTail_wrap {s : State} (h : s.ringOk) (hv : s.valid = true) {n : Nat} (hn : n ≤ s.filled) :
    (s.setTail (s.wrap s.tail n)).contents = s.contents.drop n := by
  rw [State.contents_eq, State.contents_eq, State.filled_setTail_wrap h hv hn]
  refine List.ext_getElem (by simp) fun i _ _ => ?_
  rw [List.getElem_map, List.getElem_drop, List.getElem_map, List.getElem_range, List.getElem_range]
  exact congrArg s.ringByte (ringWrap_ringWrap s.cap s.tail n i)

/-- Settles O26: the advances succeed within `free` and `filled`, and an answer does not change the contents. -/
theorem advancesQueueTheBytes : Obligations.AdvancesQueueTheBytes := by
  intro s n h hv
  refine ⟨fun hn => ?_, fun hn => ?_⟩
  · exact ⟨_, exec_of_succeeds (i := .advHead n) ⟨hv, hn, rfl, rfl⟩, State.contents_setHead_wrap h hv hn⟩
  · exact ⟨_, exec_of_succeeds (i := .advTail n) ⟨hv, hn, rfl, rfl⟩, State.contents_setTail_wrap h hv hn⟩

end Sys2Proof.Machine
end

section
/-! PROOFS. `ERR` is read by `STATUS` alone (10_state.md R22). -/

namespace Sys2Proof.Machine

/-- No check of a command looks at `ERR`. -/
theorem raises_err (s : State) (e : Byte) (i : Instr) (f : FaultCode) :
    Raises { s with err := e } i f ↔ Raises s i f := by
  cases i <;> exact Iff.rfl

/-- With any other `ERR` a command other than `STATUS` has the same effect and the same answer. -/
theorem succeeds_err {s u : State} {i : Instr} {v : Nat} (hi : i ≠ .status) (h : Succeeds s i u v) (e : Byte) :
    Succeeds { s with err := e } i { u with err := e } v := by
  cases i with
  | construct n =>
    obtain ⟨hv, h0, hn, rfl, rfl⟩ := h
    exact ⟨hv, h0, hn, rfl, rfl⟩
  | status => exact absurd rfl hi
  | advHead n | advTail n =>
    obtain ⟨hv, hn, rfl, rfl⟩ := h
    exact ⟨hv, hn, rfl, rfl⟩
  | copy dst src size =>
    rcases h with ⟨h0, rfl, rfl⟩ | ⟨h0, hb, ho, rfl, rfl⟩
    · exact .inl ⟨h0, rfl, rfl⟩
    · exact .inr ⟨h0, hb, ho, rfl, rfl⟩
  | destroy | isEmpty | filled | free | capacity | headToEnd | tailToEnd | nextHead k | nextTail k =>
    obtain ⟨hv, rfl, rfl⟩ := h
    exact ⟨hv, rfl, rfl⟩

/-- Settles O46: the command faults with the same code or succeeds with the same effect, and a fault changes `ERR`
alone besides its response. -/
theorem errDoesNotAffectExecution : Obligations.ErrDoesNotAffectExecution := by
  intro i s e hi
  rcases exec_cases i s with ⟨f, hf, he⟩ | ⟨u, v, hu, he⟩
  · exact ⟨_, errAfter e (faultCode f), he, exec_of_raises ((raises_err s e i f).2 hf)⟩
  · exact ⟨_, e, he, exec_of_succeeds (succeeds_err hi hu e)⟩

end Sys2Proof.Machine
end

section
/-! PROOFS. What a step does to the registers, said once (`step_ringChange`), and the rules of 10_state.md R11 to R14,
R23 and R28 that follow from it. -/

namespace Sys2Proof.Machine

/-! ### The four ring registers together -/

/-- `VALID`, `CAP`, `HEAD` and `TAIL`. -/
def State.ring (s : State) : Bool × Nat × Nat × Nat := (s.valid, s.cap, s.head, s.tail)

theorem State.ring_eq_iff {s : State} {v : Bool} {c h t : Nat} :
    s.ring = (v, c, h, t) ↔ s.valid = v ∧ s.cap = c ∧ s.head = h ∧ s.tail = t := by
  simp [State.ring]

/-- What the step from `s` to `t` did to the ring registers, with the event that did it. -/
inductive RingChange (s t : State) : Prop where
  | kept (ring : t.ring = s.ring)
  | constructed (w n : Nat) (rest : List Input) (hi : s.inputs = .command w :: rest)
      (hd : decode s.cfg.xlen w = .ok (.construct n)) (hn : 1 ≤ n ∧ n ≤ s.cfg.storageBytes) (hv : s.valid = false)
      (ring : t.ring = (true, n, 0, 0))
  | destroyed (w : Nat) (rest : List Input) (hi : s.inputs = .command w :: rest)
      (hd : decode s.cfg.xlen w = .ok .destroy) (ring : t.ring = (false, 0, 0, 0))
  | headMoved (w n p : Nat) (rest : List Input) (hi : s.inputs = .command w :: rest)
      (hd : decode s.cfg.xlen w = .ok (.advHead n)) (ring : t.ring = (s.valid, s.cap, p, s.tail))
  | tailMoved (w n p : Nat) (rest : List Input) (hi : s.inputs = .command w :: rest)
      (hd : decode s.cfg.xlen w = .ok (.advTail n)) (ring : t.ring = (s.valid, s.cap, s.head, p))
  | wasReset (rest : List Input)
      (hi : s.inputs = .reset :: rest ∨ ∃ w landed issued, s.inputs = .resetDuring w landed issued :: rest)
      (ring : t.ring = (false, 0, 0, 0))

/-- Of the commands, only `CONSTRUCT`, `DESTROY` and the two advances change a ring register. -/
theorem takeCommand_ringChange {s t : State} {w : Nat} {rest : List Input} (hi : s.inputs = .command w :: rest)
    (h : takeCommand w (s.setInputs rest) = .next t) : RingChange s t := by
  rcases takeCommand_cases w (s.setInputs rest) with ⟨e, -, he⟩ | ⟨i, f, -, -, he⟩ | ⟨i, u, v, hd, hu, he⟩ <;>
    obtain rfl := Host.Outcome.next.inj (he.symm.trans h)
  · exact .kept rfl
  · exact .kept rfl
  · cases i with
    | construct n =>
      obtain ⟨hv, h0, hn, rfl, -⟩ := hu
      exact .constructed w n rest hi hd ⟨Nat.pos_of_ne_zero h0, hn⟩ hv rfl
    | destroy =>
      obtain ⟨-, rfl, -⟩ := hu
      exact .destroyed w rest hi hd rfl
    | advHead n =>
      obtain ⟨-, -, rfl, -⟩ := hu
      exact .headMoved w n _ rest hi hd rfl
    | advTail n =>
      obtain ⟨-, -, rfl, -⟩ := hu
      exact .tailMoved w n _ rest hi hd rfl
    | copy dst src size => rcases hu with ⟨-, rfl, -⟩ | ⟨-, -, -, rfl, -⟩ <;> exact .kept rfl
    | status =>
      obtain ⟨rfl, -⟩ := hu
      exact .kept rfl
    | isEmpty | filled | free | capacity | headToEnd | tailToEnd | nextHead k | nextTail k =>
      obtain ⟨-, rfl, -⟩ := hu
      exact .kept rfl

/-- What a step does to the ring registers. -/
theorem step_ringChange {s t : State} (h : step s = .next t) : RingChange s t := by
  obtain ⟨-, hcases⟩ := step_cases h
  rcases hcases with ⟨-, rfl⟩ | ⟨w, rest, hi, ht⟩ | ⟨rest, hi, rfl⟩ | ⟨w, landed, issued, rest, hi, rfl⟩ |
    ⟨a, v, rest, -, -, rfl⟩ | ⟨a, rest, -, -, rfl⟩ | ⟨w, seen, ends, reads, rest, dst, src, size, -, -, -, rfl⟩
  · exact .kept rfl
  · exact takeCommand_ringChange hi ht
  · exact .wasReset rest (.inl hi) rfl
  · exact .wasReset rest (.inr ⟨w, landed, issued, hi⟩) rfl
  · exact .kept rfl
  · exact .kept rfl
  · exact .kept rfl

/-- No step changes the build parameters (00_scope.md R5). -/
theorem step_cfg {s t : State} (h : step s = .next t) : t.cfg = s.cfg := by
  obtain ⟨-, hcases⟩ := step_cases h
  rcases hcases with ⟨-, rfl⟩ | ⟨w, rest, -, ht⟩ | ⟨rest, -, rfl⟩ | ⟨w, landed, issued, rest, -, rfl⟩ |
    ⟨a, v, rest, -, -, rfl⟩ | ⟨a, rest, -, -, rfl⟩ | ⟨w, seen, ends, reads, rest, dst, src, size, -, -, -, rfl⟩
  case inr.inl =>
    rcases takeCommand_cases w (s.setInputs rest) with ⟨e, -, he⟩ | ⟨i, f, -, -, he⟩ | ⟨i, u, v, -, hu, he⟩ <;>
      obtain rfl := Host.Outcome.next.inj (he.symm.trans ht)
    · rfl
    · rfl
    · exact (succeeds_frame hu).1
  all_goals rfl

/-! ### The statements -/

/-- Settles O48: only `constructed` sets `VALID`, and only `destroyed` and `wasReset` clear it. -/
theorem validChangesOnlyAsItsRuleSays : Obligations.ValidChangesOnlyAsItsRuleSays := by
  intro s t h
  cases step_ringChange h with
  | kept ring | headMoved _ _ _ _ _ _ ring | tailMoved _ _ _ _ _ _ ring =>
    obtain ⟨hv, -⟩ := State.ring_eq_iff.1 ring
    exact ⟨by simp +contextual [hv], by simp +contextual [hv]⟩
  | constructed w n rest hi hd hn _ ring =>
    obtain ⟨hv, -⟩ := State.ring_eq_iff.1 ring
    exact ⟨fun _ _ => ⟨w, n, rest, hi, hd, hn⟩, fun _ hf => absurd (hv.symm.trans hf) nofun⟩
  | destroyed w rest hi hd ring =>
    obtain ⟨hv, -⟩ := State.ring_eq_iff.1 ring
    exact ⟨fun _ ht => absurd (hv.symm.trans ht) nofun, fun _ _ => ⟨rest, .inl ⟨w, hi, hd⟩⟩⟩
  | wasReset rest hi ring =>
    obtain ⟨hv, -⟩ := State.ring_eq_iff.1 ring
    exact ⟨fun _ ht => absurd (hv.symm.trans ht) nofun, fun _ _ => ⟨rest, .inr hi⟩⟩

/-- While a ring lives, `CAP` is fixed and `HEAD` and `TAIL` move by their own command alone. -/
theorem ringChange_alive {s t : State} (h : RingChange s t) (hs : s.valid = true) (ht : t.valid = true) :
    t.cap = s.cap ∧
    (t.head ≠ s.head → ∃ (w n : Nat) (rest : List Input),
      s.inputs = .command w :: rest ∧ decode s.cfg.xlen w = .ok (.advHead n)) ∧
    (t.tail ≠ s.tail → ∃ (w n : Nat) (rest : List Input),
      s.inputs = .command w :: rest ∧ decode s.cfg.xlen w = .ok (.advTail n)) := by
  cases h with
  | kept ring =>
    obtain ⟨-, hc, hh, htl⟩ := State.ring_eq_iff.1 ring
    exact ⟨hc, fun hne => absurd hh hne, fun hne => absurd htl hne⟩
  | headMoved w n p rest hi hd ring =>
    obtain ⟨-, hc, -, htl⟩ := State.ring_eq_iff.1 ring
    exact ⟨hc, fun _ => ⟨w, n, rest, hi, hd⟩, fun hne => absurd htl hne⟩
  | tailMoved w n p rest hi hd ring =>
    obtain ⟨-, hc, hh, -⟩ := State.ring_eq_iff.1 ring
    exact ⟨hc, fun hne => absurd hh hne, fun _ => ⟨w, n, rest, hi, hd⟩⟩
  | constructed w n rest _ _ _ hv _ => exact absurd (hs.symm.trans hv) nofun
  | destroyed _ _ _ _ ring | wasReset _ _ ring =>
    exact absurd (ht.symm.trans (State.ring_eq_iff.1 ring).1) nofun

/-- Settles O49: the ranges are the invariant's, the rest is `ringChange_alive`. -/
theorem registersMoveOnlyByTheirCommand : Obligations.RegistersMoveOnlyByTheirCommand := by
  intro s t h
  refine ⟨step_cfg h, fun hs => ?_, ringChange_alive (step_ringChange h)⟩
  obtain ⟨hc, hr, -⟩ := everyStepKeepsTheInvariant s t hs h
  refine ⟨fun hv => ?_, hr.2⟩
  obtain ⟨h1, hn, hh, ht⟩ := t.ringOk_valid hr hv
  exact ⟨h1, hn, hh, ht, t.lt_of_le_cap hc hr hv le_rfl⟩

/-- A step that sets `VALID` took the `CONSTRUCT` of the `CAP` it leaves (10_state.md R11, R12). -/
theorem ringChange_born {s t : State} (h : RingChange s t) (hs : s.valid = false) (ht : t.valid = true) :
    ∃ (w : Nat) (rest : List Input), s.inputs = .command w :: rest ∧
      decode s.cfg.xlen w = .ok (.construct t.cap) := by
  cases h with
  | constructed w n rest hi hd _ _ ring =>
    obtain ⟨-, rfl, -⟩ := State.ring_eq_iff.1 ring
    exact ⟨w, rest, hi, hd⟩
  | kept ring | headMoved _ _ _ _ _ _ ring | tailMoved _ _ _ _ _ _ ring =>
    exact absurd (ht.symm.trans ((State.ring_eq_iff.1 ring).1.trans hs)) nofun
  | destroyed _ _ _ _ ring | wasReset _ _ ring =>
    exact absurd (ht.symm.trans (State.ring_eq_iff.1 ring).1) nofun

/-- Settles O52: INV1 to INV5 are arithmetic on registers in range, and INV6 traces `CAP` to its `CONSTRUCT`. -/
theorem ringInvariantsHold : Obligations.RingInvariantsHold := by
  intro s t hs h hv
  have hr : t.ringOk := (everyStepKeepsTheInvariant s t hs h).ringOk
  obtain ⟨h1, hn, hh, ht⟩ := t.ringOk_valid hr hv
  have hlt := t.filled_lt hr hv
  have hfree := t.one_le_free hr hv
  have hchange := step_ringChange h
  exact ⟨⟨hh, ht⟩, t.filled_add_free hr hv, ⟨by omega, hfree, Nat.sub_le _ _⟩,
    ⟨Nat.sub_add_cancel hh.le, Nat.sub_add_cancel ht.le⟩, ringFilled_eq_zero ht, h1, hn,
    fun hsv => (ringChange_alive hchange hsv hv).1, fun hsv => ringChange_born hchange hsv hv⟩

/-- Settles O54: the reset values are those of `State.resetRegisters`, `DESTROY` gives all of them but `ERR`, and no
other event touches a register. -/
theorem resetSetsTheRegisters : Obligations.ResetSetsTheRegisters := by
  refine ⟨fun c m => ⟨rfl, rfl, rfl, rfl, rfl, rfl⟩, fun s rest hc hi => step_of_inputs hc hi, fun s hv => ?_,
    fun s t h => ?_⟩
  · exact ⟨_, exec_of_succeeds (i := .destroy) ⟨hv, rfl, rfl⟩, rfl, rfl, rfl, rfl, rfl⟩
  · obtain ⟨-, hcases⟩ := step_cases h
    rcases hcases with ⟨-, rfl⟩ | ⟨w, rest, hi, -⟩ | ⟨rest, hi, -⟩ | ⟨w, landed, issued, rest, hi, -⟩ |
      ⟨a, v, rest, -, -, rfl⟩ | ⟨a, rest, -, -, rfl⟩ | ⟨w, seen, ends, reads, rest, dst, src, size, -, -, -, rfl⟩
    · exact .inl ⟨rfl, rfl, rfl, rfl, rfl⟩
    · exact .inr ⟨rest, .inl ⟨w, hi⟩⟩
    · exact .inr ⟨rest, .inr (.inl hi)⟩
    · exact .inr ⟨rest, .inr (.inr ⟨w, landed, issued, hi⟩)⟩
    · exact .inl ⟨rfl, rfl, rfl, rfl, rfl⟩
    · exact .inl ⟨rfl, rfl, rfl, rfl, rfl⟩
    · exact .inl ⟨rfl, rfl, rfl, rfl, rfl⟩

end Sys2Proof.Machine
end

section
/-! PROOFS. `MEM` as data: memories in canonical form are told apart by what they read (20_memory.md R30). -/

namespace Sys2Proof.Machine

/-- In a sorted list the cells are exactly what is found. -/
theorem mem_iff_cellsFind {ps : List Host.Cell} (h : ps.Pairwise (fun p q => p.1 < q.1)) (q : Host.Cell) :
    q ∈ ps ↔ cellsFind ps q.1 = some q.2 :=
  ⟨cellsFind_of_mem h, mem_of_cellsFind⟩

/-- Sorted lists of cells that find the same bytes are equal. -/
theorem cells_eq_of_cellsFind {ps qs : List Host.Cell} (hps : ps.Pairwise (fun p q => p.1 < q.1))
    (hqs : qs.Pairwise (fun p q => p.1 < q.1)) (h : ∀ a, cellsFind ps a = cellsFind qs a) : ps = qs := by
  have : Std.Asymm (fun p q : Host.Cell => p.1 < q.1) := ⟨fun _ _ => Nat.lt_asymm⟩
  refine hps.eq_of_mem_iff hqs fun q => ?_
  rw [mem_iff_cellsFind hps, mem_iff_cellsFind hqs, h]

/-- In canonical form a cell is listed for exactly the bytes that differ from `unwritten`. -/
theorem Memory.cellsFind_eq {m : Memory} (h : m.wf) (a : Nat) :
    cellsFind m.cells a = if m.read a = m.unwritten then none else some (m.read a) := by
  cases hf : cellsFind m.cells a with
  | none => simp [Memory.read, hf]
  | some v =>
    have hv : v ≠ m.unwritten := h.2 _ (mem_of_cellsFind hf)
    simp [Memory.read, hf, hv]

/-- Settles O57: what a canonical memory lists is a function of what it reads, and it lists it in one order. -/
theorem equalMemoriesAreEqualData : Obligations.EqualMemoriesAreEqualData := by
  intro m m' hm hm' hu hread
  have hcells : m.cells = m'.cells := cells_eq_of_cellsFind hm.1 hm'.1 fun a => by
    rw [Memory.cellsFind_eq hm, Memory.cellsFind_eq hm', hread, hu]
  cases m
  cases m'
  exact congrArg₂ Memory.mk hu hcells

end Sys2Proof.Machine
end

section
/-! PROOFS. The staging register: lane `k` of a chunk is its byte `k`, in the register, in `MEM` and in the beats
(20_memory.md R34). -/

namespace Sys2Proof.Machine

/-! ### One chunk -/

/-- `MemRead(a, n)` has a byte `k` for `k < n`, and it is `MEM[a + k]`. -/
theorem Memory.getElem?_readBytes_eq_some {m : Memory} {a n k : Nat} {v : Byte} :
    (m.readBytes a n)[k]? = some v ↔ k < n ∧ m.read (a + k) = v := by
  simp [Memory.getElem?_readBytes]

/-- Lane `k` of the staging register filled by `MemRead(a, w)`. -/
theorem stagingLane_readBytes (m : Memory) (a : Nat) {w k : Nat} (hk : k < w) :
    stagingLane (stagingWord (m.readBytes a w)) k = m.read (a + k) := by
  have hlen : k < (m.readBytes a w).length := by simpa using hk
  rw [stagingLane_stagingWord _ hlen]
  exact (Memory.getElem?_readBytes_eq_some.1 (List.getElem?_eq_getElem hlen)).2.symm

/-- Byte `k` of what `MemWrite` stored. -/
theorem Memory.read_add_writeBytes {vs : List Byte} {k : Nat} {v : Byte} (h : vs[k]? = some v) (m : Memory) (a : Nat) :
    (m.writeBytes a vs).read (a + k) = v := by
  simp [Memory.read_writeBytes, h]

/-- `MemWrite` changes no byte outside the addresses it stores to. -/
theorem Memory.read_writeBytes_outside (m : Memory) {a x : Nat} {vs : List Byte} (h : x < a ∨ a + vs.length ≤ x) :
    (m.writeBytes a vs).read x = m.read x := by
  rw [Memory.read_writeBytes]
  split
  · rw [List.getElem?_eq_none (by omega), Option.getD_none]
  · rfl

/-- A transition that moves a chunk, lane by lane. -/
theorem datapathTick_lanes {dst src w : Nat} {d : Datapath} (hw : tierWidth d.tier = some w) (hr : w ≤ d.rem) {k : Nat}
    (hk : k < w) :
    stagingLane (datapathTick dst src d).staging k = d.mem.read (src + d.off + k) ∧
    (datapathTick dst src d).mem.read (dst + d.off + k) = d.mem.read (src + d.off + k) := by
  rw [datapathTick_move hw hr]
  exact ⟨stagingLane_readBytes _ _ hk,
    Memory.read_add_writeBytes (Memory.getElem?_readBytes_eq_some.2 ⟨hk, rfl⟩) _ _⟩

/-! ### A whole copy -/

/-- A destination byte of a copy. -/
theorem copyMove_read_dst {v : VLen} {dst src size i : Nat} (h : src + size ≤ dst ∨ dst + size ≤ src) (m : Memory)
    (hi : i < size) : (copyMove v dst src size m).1.read (dst + i) = m.read (src + i) := by
  rw [copyMove_read h, if_pos (by omega), Nat.add_sub_cancel_left]

/-- A byte outside the destination of a copy. -/
theorem copyMove_read_outside {v : VLen} {dst src size x : Nat} (h : src + size ≤ dst ∨ dst + size ≤ src) (m : Memory)
    (hx : x < dst ∨ dst + size ≤ x) : (copyMove v dst src size m).1.read x = m.read x := by
  rw [copyMove_read h, if_neg (by omega)]

/-- A planned beat reads its bytes at some offset `o` of the source, or stores them at offset `o` of the
destination. -/
theorem mem_plannedBeats {m : Memory} {dst src off : Nat} {ws : List Nat} {b : Beat}
    (hb : b ∈ plannedBeats m dst src off ws) :
    ∃ o w, off ≤ o ∧ o + w ≤ off + ws.sum ∧ b.data = m.readBytes (src + o) w ∧
      ((b.kind = .read ∧ b.addr = src + o) ∨ (b.kind = .write ∧ b.addr = dst + o)) := by
  induction ws generalizing off with
  | nil => simp [plannedBeats] at hb
  | cons w ws ih =>
    rw [List.sum_cons]
    simp only [plannedBeats, List.mem_cons] at hb
    rcases hb with rfl | rfl | hb
    · exact ⟨off, w, le_rfl, by omega, rfl, .inl ⟨rfl, rfl⟩⟩
    · exact ⟨off, w, le_rfl, by omega, rfl, .inr ⟨rfl, rfl⟩⟩
    · obtain ⟨o, u, ho, hou, hdata, hkind⟩ := ih hb
      exact ⟨o, u, by omega, by omega, hdata, hkind⟩

/-- Byte `k` of a beat of a copy is the byte at the beat's address plus `k`: of `MEM` before for a read beat, of `MEM`
after for a write beat. -/
theorem copyMove_beat_byte {v : VLen} {dst src size : Nat} (h : src + size ≤ dst ∨ dst + size ≤ src) {m : Memory}
    {b : Beat} (hb : b ∈ (copyMove v dst src size m).2) {k : Nat} {y : Byte} (hy : b.data[k]? = some y) :
    (b.kind = .read → y = m.read (b.addr + k)) ∧
    (b.kind = .write → y = (copyMove v dst src size m).1.read (b.addr + k)) := by
  rw [copyMove_beats h] at hb
  obtain ⟨o, w, -, how, hdata, hkind⟩ := mem_plannedBeats hb
  rw [schedule_widthsPresent_sum] at how
  rw [hdata, Memory.getElem?_readBytes_eq_some] at hy
  obtain ⟨hk, rfl⟩ := hy
  rcases hkind with ⟨hkind, haddr⟩ | ⟨hkind, haddr⟩ <;> rw [hkind, haddr]
  · exact ⟨fun _ => rfl, nofun⟩
  · refine ⟨nofun, fun _ => ?_⟩
    rw [Nat.add_assoc, Nat.add_assoc, copyMove_read_dst h m (by omega)]

/-! ### The statement -/

/-- Settles O39: the lanes are the bytes read, and `MEM` and both beats take the same list of bytes. -/
theorem stagingLanesAreLittleEndian : Obligations.StagingLanesAreLittleEndian := by
  refine ⟨fun dst src w d hw hr => ?_, fun s dst src size h1 hsrc hdst hapart => ?_⟩
  · refine ⟨fun k hk => ?_, fun a ha => ?_, d.mem.readBytes (src + d.off) w, by simp, fun k y hy => ?_, ?_⟩
    · obtain ⟨hlane, hmem⟩ := datapathTick_lanes (dst := dst) (src := src) hw hr hk
      exact ⟨hlane, hmem.trans hlane.symm⟩
    · rw [datapathTick_move hw hr]
      exact Memory.read_writeBytes_outside _ (by simpa using ha)
    · obtain ⟨hk, rfl⟩ := Memory.getElem?_readBytes_eq_some.1 hy
      exact (datapathTick_lanes hw hr hk).1.symm
    · rw [datapathTick_move hw hr]
      rfl
  · have hmoves : Succeeds s (.copy dst src size) _ dst :=
      .inr ⟨by omega, ⟨hsrc, hdst⟩, by omega, rfl, rfl⟩
    exact ⟨_, _, exec_of_succeeds hmoves, rfl, fun b hb k y hy => copyMove_beat_byte hapart hb hy⟩

end Sys2Proof.Machine
end

section
/-! PROOFS. What one step does with a command word and with the host's own accesses to `MEM` (20_memory.md R42 to R44,
70_reset_and_hazards.md R154). -/

namespace Sys2Proof.Machine

/-! ### Command words -/

/-- A word that decodes is executed by its meaning (30_encoding.md R54). -/
theorem takeCommand_of_decode {s : State} {w : Nat} {i : Instr} (h : decode s.cfg.xlen w = .ok i) :
    takeCommand w s = exec i s := by
  simp only [takeCommand, h]

/-- Settles O8: a step takes the event in front of the queue, and `withFetchWord` puts its word there. -/
theorem stepRunsTheDecodedCommand : Obligations.StepRunsTheDecodedCommand := by
  refine ⟨fun s w rest i hc hi hd => ?_, fun s nbits w i hc hd => ?_, fun s => step_idle, fun s => step_refused⟩
  · exact (step_of_inputs hc hi).trans (takeCommand_of_decode hd)
  · have hi : (s.withFetchWord nbits w).inputs = .command (w % 2 ^ nbits) :: s.inputs := rfl
    exact (step_of_inputs (s := s.withFetchWord nbits w) hc hi).trans (takeCommand_of_decode hd)

/-! ### The host's accesses between commands -/

theorem takeHostWrite_inside {s : State} {a : Nat} (v : Byte) (h : a < s.cfg.memBytes) :
    takeHostWrite a v s = .next (s.setMem (s.mem.write a v)) := if_pos h

theorem takeHostRead_inside {s : State} {a : Nat} (h : a < s.cfg.memBytes) :
    takeHostRead a s = .next (s.recordHostRead a (s.mem.read a)) := if_pos h

theorem takeHostWrite_outside {s : State} {a : Nat} (v : Byte) (h : s.cfg.memBytes ≤ a) :
    takeHostWrite a v s = .fault (.hostAccessOutsideMem a) := if_neg (Nat.not_lt.2 h)

theorem takeHostRead_outside {s : State} {a : Nat} (h : s.cfg.memBytes ≤ a) :
    takeHostRead a s = .fault (.hostAccessOutsideMem a) := if_neg (Nat.not_lt.2 h)

/-! ### The host's accesses during a `COPY` -/

theorem takeRacedCopy_of_moves {s : State} {w dst src size : Nat} (hd : decode s.cfg.xlen w = .ok (.copy dst src size))
    (hm : copyMoves s.cfg dst src size = true) (seen ends reads : List Host.Cell) :
    takeRacedCopy w seen ends reads s = .next (s.raced dst src size seen ends reads) := by
  simp only [takeRacedCopy, hd, if_pos hm]

/-- The raced state, with its beats as R118 lays them out over the bytes the race let the copy read. -/
theorem State.raced_eq {dst src size : Nat} (h : src + size ≤ dst ∨ dst + size ≤ src) (s : State)
    (seen ends reads : List Host.Cell) :
    s.raced dst src size seen ends reads =
      { s with
        mem := (s.raced dst src size seen ends reads).mem
        hostReads := s.hostReads ++ reads.filter (fun p : Host.Cell => inCopyRegions dst src size p.1)
        beats := s.beats ++ plannedBeats (racedMem dst src size s.mem seen) dst src 0
          (schedule (widthsPresent s.cfg.vlen) size) }.answered 0x30 dst := by
  rw [← copyMove_beats h]
  rfl

/-- A byte the race changed lies in one of the regions and holds a listed value. -/
theorem racedMem_read_cases (dst src size : Nat) (m : Memory) (ps : List Host.Cell) (x : Nat) :
    (racedMem dst src size m ps).read x = m.read x ∨
      (inCopyRegions dst src size x = true ∧ (x, (racedMem dst src size m ps).read x) ∈ ps) := by
  cases hx : inCopyRegions dst src size x with
  | false => exact .inl (racedMem_read_of_not_mem m ps x (.inl hx))
  | true => exact (racedMem_read_mem m ps x).imp_right fun h => ⟨rfl, h⟩

/-! ### The statement -/

/-- Settles O56: between commands the access is one `Memory.write` or `Memory.read`; during a `COPY` the race acts on
`MEM` before the copy reads it (`seen`) and after the copy wrote it (`ends`), each time in the two regions only. -/
theorem hostAccessesMemory : Obligations.HostAccessesMemory := by
  refine ⟨fun s a v rest hc => ⟨fun hi ha => ?_, fun hi ha => ?_, fun hi ha => ?_⟩,
    fun s w seen ends reads rest dst src size hc hi hd h1 hsrc hdst hapart => ?_⟩
  · exact ⟨_, (step_of_inputs hc hi).trans (takeHostWrite_inside v ha), rfl, fun x => Memory.read_write ..⟩
  · exact (step_of_inputs hc hi).trans (takeHostRead_inside ha)
  · rcases hi with hi | hi
    · exact (step_of_inputs hc hi).trans (takeHostWrite_outside v ha)
    · exact (step_of_inputs hc hi).trans (takeHostRead_outside ha)
  · have hm : copyMoves s.cfg dst src size = true :=
      (copyMoves_iff _ _ _ _).2 ⟨by omega, ⟨hsrc, hdst⟩, by omega⟩
    refine ⟨_, racedMem dst src size s.mem seen, _,
      (step_of_inputs hc hi).trans (takeRacedCopy_of_moves (s := s.setInputs rest) hd hm seen ends reads),
      State.raced_eq hapart (s.setInputs rest) seen ends reads, fun x => ?_, fun i hin => ?_, fun i hin => ?_,
      fun x hxd hxs => ?_, fun p hp => ?_⟩
    · rw [← inCopyRegions_iff]
      exact racedMem_read_cases dst src size s.mem seen x
    · rw [← copyMove_read_dst hapart _ hin]
      exact racedMem_read_mem _ ends (dst + i)
    · rw [← copyMove_read_outside (v := s.cfg.vlen) hapart (racedMem dst src size s.mem seen) (by omega)]
      exact racedMem_read_mem _ ends (src + i)
    · have hx : inCopyRegions dst src size x = false := by
        rw [Bool.eq_false_iff, Ne, inCopyRegions_iff]
        omega
      rw [State.mem_raced, racedMem_read_of_not_mem _ ends x (.inl hx), copyMove_read_outside hapart _ hxd]
      exact racedMem_read_of_not_mem _ seen x (.inl hx)
    · rw [← inCopyRegions_iff]
      exact List.mem_filter.1 hp

end Sys2Proof.Machine
end

section
/-! PROOFS. The encoding of commands and responses (30_encoding.md): the two steps of the decoder, and the round
trips of the command word and of the response word. -/

namespace Sys2Proof

/-! ### The round trip of the command word -/

/-- The record of an instruction decodes to it: its opcode is listed, and the fields its format leaves unused are zero
(R54, R55). -/
theorem decodeCommand_command (i : Instr) : decodeCommand i.command = .ok i := by
  refine decodeCommand_ok.2 ⟨i.opcode, ?_, ?_, ?_⟩ <;> cases i <;> rfl

theorem decode_encode {x : XLen} {i : Instr} (h : i.wf x = true) : decode x (encode x i) = .ok i := by
  unfold decode encode
  rw [Command.ofWord_toWord (Instr.command_wf h), decodeCommand_command]

theorem encode_of_decode {x : XLen} {w : Nat} {i : Instr} (hw : w < 2 ^ commandBits x) (h : decode x w = .ok i) :
    encode x i = w := by
  unfold encode
  rw [command_of_decodeCommand h, Command.toWord_ofWord hw]

/-- Settles O1: a well-formed command's record fits its word, is read back from it, and decodes to the command. -/
theorem decodeOfEncodeIsTheCommand : Obligations.DecodeOfEncodeIsTheCommand :=
  fun _ _ h => ⟨Command.toWord_lt (Instr.command_wf h), decode_encode h⟩

/-- Settles O2: an accepted record is the record of its instruction, and a word of the port's width is its record. -/
theorem encodeOfDecodeIsTheWord : Obligations.EncodeOfDecodeIsTheWord :=
  fun _ _ _ hw h => ⟨encode_of_decode hw h, wf_of_decode h⟩

/-! ### The opcode map as byte values -/

/-- The listed opcode values, in the order of the map (R55). -/
def opcodeValues : List Nat := opcodeMap.map fun o => o.code.toNat

/-- The listed opcode values of one format (R51, R55). -/
def Format.opcodeValues (f : Format) : List Nat := (opcodeMap.filter (·.format = f)).map fun o => o.code.toNat

theorem mem_opcodeValues {op : Byte} : op.toNat ∈ opcodeValues ↔ ∃ o : Opcode, o.code = op := by
  simp [opcodeValues, Opcode.mem_opcodeMap, BitVec.toNat_inj]

theorem Format.mem_opcodeValues {f : Format} {op : Byte} :
    op.toNat ∈ f.opcodeValues ↔ ∃ o : Opcode, o.code = op ∧ o.format = f := by
  simp [Format.opcodeValues, Opcode.mem_opcodeMap, BitVec.toNat_inj, and_comm]

theorem opcodeValues_eq :
    opcodeValues = [0x01, 0x02, 0x03, 0x10, 0x11, 0x12, 0x13, 0x14, 0x15, 0x16, 0x17, 0x20, 0x21, 0x30] := by decide

theorem Format.opcodeValues_Z : Format.Z.opcodeValues = [0x02, 0x03, 0x10, 0x11, 0x12, 0x13, 0x14, 0x15] := by decide

theorem Format.opcodeValues_A : Format.A.opcodeValues = [0x01, 0x16, 0x17, 0x20, 0x21] := by decide

theorem Opcode.isNone_ofCode_iff {n : Nat} (h : n < 256) :
    (Opcode.ofCode (BitVec.ofNat 8 n)).isNone = true ↔ n ∉ opcodeValues := by
  have hn : (BitVec.ofNat 8 n).toNat = n := Nat.mod_eq_of_lt h
  rw [Option.isNone_iff_eq_none, Opcode.ofCode_eq_none, ← not_exists, ← mem_opcodeValues, hn]

/-- The byte values that are not reserved are the fourteen listed ones (R56). -/
theorem filter_not_reserved_perm :
    ((List.range 256).filter (fun n => !(Opcode.ofCode (BitVec.ofNat 8 n)).isNone)).Perm opcodeValues := by
  refine (List.perm_ext_iff_of_nodup (List.nodup_range.filter _) (by decide)).2 fun n => ?_
  have hlt : n ∈ opcodeValues → n < 256 := (by decide : ∀ m ∈ opcodeValues, m < 256) n
  rw [List.mem_filter, List.mem_range, Bool.not_eq_true', ← Bool.not_eq_true]
  constructor
  · rintro ⟨hn, hsome⟩
    exact not_not.1 ((Opcode.isNone_ofCode_iff hn).not.1 hsome)
  · intro hmem
    exact ⟨hlt hmem, fun hnone => (Opcode.isNone_ofCode_iff (hlt hmem)).1 hnone hmem⟩

theorem length_filter_reserved :
    ((List.range 256).filter (fun n => (Opcode.ofCode (BitVec.ofNat 8 n)).isNone)).length = 242 := by
  have hsum := List.length_eq_length_filter_add (l := List.range 256)
    fun n => (Opcode.ofCode (BitVec.ofNat 8 n)).isNone
  have h14 : opcodeValues.length = 14 := rfl
  rw [List.length_range, filter_not_reserved_perm.length_eq, h14] at hsum
  omega

/-! ### The two steps of the decoder (R54) -/

/-- The opcode is listed and a field that its format leaves unused is not zero (R57). -/
def Command.unusedNonzero (k : Command) : Prop := ∃ o : Opcode, o.code = k.op ∧ o.format.accepts k = false

theorem Command.unusedNonzero_iff {k : Command} : k.unusedNonzero ↔
    (k.op.toNat ∈ Format.Z.opcodeValues ∧ (k.a ≠ 0 ∨ k.b ≠ 0 ∨ k.c ≠ 0)) ∨
      (k.op.toNat ∈ Format.A.opcodeValues ∧ (k.b ≠ 0 ∨ k.c ≠ 0)) := by
  simp only [Command.unusedNonzero, Format.mem_opcodeValues]
  constructor
  · rintro ⟨o, ho, hacc⟩
    cases hf : o.format <;> simp only [hf, Format.accepts, Bool.and_eq_false_iff, beq_eq_false_iff_ne] at hacc
    case Z => exact .inl ⟨⟨o, ho, hf⟩, or_assoc.1 hacc⟩
    case A => exact .inr ⟨⟨o, ho, hf⟩, hacc⟩
    case ABC => cases hacc
  · rintro (⟨⟨o, ho, hf⟩, hz⟩ | ⟨⟨o, ho, hf⟩, hz⟩)
    · exact ⟨o, ho, by simpa [hf, Format.accepts, or_assoc, imp_iff_not_or] using hz⟩
    · exact ⟨o, ho, by simpa [hf, Format.accepts, imp_iff_not_or] using hz⟩

theorem decodeCommand_of_not_listed {k : Command} (h : k.op.toNat ∉ opcodeValues) :
    decodeCommand k = .error (.reservedOpcode k.op) := by
  have hnone : Opcode.ofCode k.op = none := Opcode.ofCode_eq_none.2 fun o ho => h (mem_opcodeValues.2 ⟨o, ho⟩)
  simp only [decodeCommand, hnone]

theorem decodeCommand_of_unusedNonzero {k : Command} (h : k.unusedNonzero) :
    decodeCommand k = .error (.nonzeroField k.op) := by
  obtain ⟨o, ho, hacc⟩ := h
  simp [decodeCommand, ← ho, Opcode.ofCode_code, hacc]

theorem exists_decodeCommand_ok {k : Command} (h : k.op.toNat ∈ opcodeValues) (hk : ¬ k.unusedNonzero) :
    ∃ i, decodeCommand k = .ok i := by
  obtain ⟨o, ho⟩ := mem_opcodeValues.1 h
  have hacc : o.format.accepts k = true := Bool.eq_true_of_not_eq_false fun hf => hk ⟨o, ho, hf⟩
  exact ⟨_, decodeCommand_ok.2 ⟨o, ho, hacc, rfl⟩⟩

/-! ### Words and their records -/

theorem Command.op_ofWord (x : XLen) (w : Nat) : (Command.ofWord x w).op = BitVec.ofNat 8 (w % 256) := by
  simp [Command.ofWord, bitField]

theorem Command.toNat_op_ofWord (x : XLen) (w : Nat) : (Command.ofWord x w).op.toNat = w % 256 := by
  simp [Command.op_ofWord]

/-- The unused fields of a word, with the opcode values of each format written out (R50, R57). -/
theorem Command.unusedNonzero_ofWord {x : XLen} {w : Nat} : (Command.ofWord x w).unusedNonzero ↔
    (w % 256 ∈ [0x02, 0x03, 0x10, 0x11, 0x12, 0x13, 0x14, 0x15] ∧
      (w / 2 ^ 8 % 2 ^ x.bits ≠ 0 ∨ w / 2 ^ (x.bits + 8) % 2 ^ x.bits ≠ 0 ∨
        w / 2 ^ (2 * x.bits + 8) % 2 ^ x.bits ≠ 0)) ∨
    (w % 256 ∈ [0x01, 0x16, 0x17, 0x20, 0x21] ∧
      (w / 2 ^ (x.bits + 8) % 2 ^ x.bits ≠ 0 ∨ w / 2 ^ (2 * x.bits + 8) % 2 ^ x.bits ≠ 0)) := by
  rw [Command.unusedNonzero_iff, Command.toNat_op_ofWord, Format.opcodeValues_Z, Format.opcodeValues_A]
  rfl

theorem decode_of_not_listed {x : XLen} {w : Nat} (h : w % 256 ∉ opcodeValues) :
    decode x w = .error (.reservedOpcode (BitVec.ofNat 8 (w % 256))) := by
  rw [← Command.op_ofWord x w]
  exact decodeCommand_of_not_listed (by rwa [Command.toNat_op_ofWord])

theorem decode_of_unusedNonzero {x : XLen} {w : Nat} (h : (Command.ofWord x w).unusedNonzero) :
    decode x w = .error (.nonzeroField (BitVec.ofNat 8 (w % 256))) := by
  rw [← Command.op_ofWord x w]
  exact decodeCommand_of_unusedNonzero h

theorem exists_decode_ok {x : XLen} {w : Nat} (h : w % 256 ∈ opcodeValues)
    (hk : ¬ (Command.ofWord x w).unusedNonzero) : ∃ i, decode x w = .ok i :=
  exists_decodeCommand_ok (by rwa [Command.toNat_op_ofWord]) hk

/-! ### The words of the spec -/

/-- Settles O4: the decoder is run on each word. -/
theorem wordsOfTheSpecDecode : Obligations.WordsOfTheSpecDecode :=
  ⟨rfl, rfl, rfl, rfl, rfl, rfl, rfl, rfl, rfl, rfl, rfl⟩

/-! ### The response word (R52) -/

theorem Response.toWord_lt {x : XLen} {r : Response} (h : r.value < 2 ^ x.bits) : r.toWord < 2 ^ responseBits x := by
  have hop := r.op.isLt
  have hst := r.status.isLt
  rw [responseBits, Nat.pow_add]
  simp only [Response.toWord]
  omega

theorem Response.ofWord_toWord {x : XLen} {r : Response} (h : r.value < 2 ^ x.bits) :
    Response.ofWord x r.toWord = r := by
  have hop := r.op.isLt
  have hst := r.status.isLt
  have hop' : bitField 0 8 r.toWord = r.op.toNat := by
    simp only [bitField, Response.toWord]
    omega
  have hst' : bitField 8 8 r.toWord = r.status.toNat := by
    simp only [bitField, Response.toWord]
    omega
  have hhigh : r.toWord / 2 ^ 16 = r.value := by
    simp only [Response.toWord]
    omega
  have hval : bitField 16 x.bits r.toWord = r.value := by rw [bitField, hhigh, Nat.mod_eq_of_lt h]
  simp [Response.ofWord, hop', hst', hval]

theorem Response.toWord_ofWord {x : XLen} {w : Nat} (h : w < 2 ^ responseBits x) :
    (Response.ofWord x w).toWord = w := by
  have hv : w / 2 ^ 16 % 2 ^ x.bits = w / 2 ^ 16 := by
    rw [responseBits, Nat.pow_add] at h
    exact Nat.mod_eq_of_lt (by omega)
  simp only [Response.toWord, Response.ofWord, bitField, hv, BitVec.toNat_ofNat]
  omega

/-- Settles O7: the fields of the word of a response are the response's, and a word of that width has no other bits. -/
theorem responseWordsRoundTrip : Obligations.ResponseWordsRoundTrip :=
  ⟨fun _ _ h => ⟨Response.toWord_lt h, Response.ofWord_toWord h⟩, fun _ _ => Response.toWord_ofWord⟩

end Sys2Proof
end

section
/-! PROOFS. Every command word is answered once (30_encoding.md R52), and an illegal one is answered by `E_ILLEGAL`
and does nothing else (R54, R56, R57). -/

namespace Sys2Proof.Machine

/-! ### Illegal words -/

/-- An illegal word raises `E_ILLEGAL` and leaves nothing else (R56, R57, 60_exceptions.md R133). -/
theorem step_of_decode_error {s : State} {w : Nat} {rest : List Input} {e : DecodeError} (hc : s.cfg.valid)
    (hi : s.inputs = .command w :: rest) (hd : decode s.cfg.xlen w = .error e) :
    step s = .next ((s.setInputs rest).faulted (BitVec.ofNat 8 (w % 256)) 0x01 (w / 2 ^ 8 % 2 ^ s.cfg.xlen.bits)) := by
  rcases step_command_cases hc hi with ⟨f, h, ⟨_, -, rfl⟩ | ⟨i, hok, -⟩⟩ | ⟨i, u, v, hok, -, -⟩
  · exact h
  · exact absurd (hd.symm.trans hok) nofun
  · exact absurd (hd.symm.trans hok) nofun

/-- Settles O3: the opcode is looked up first and the unused fields are compared next; an illegal word only faults;
and a legal word is the encoding of its command. -/
theorem decodingTakesTwoSteps : Obligations.DecodingTakesTwoSteps := by
  refine ⟨fun x w => ?_, fun s w rest e => step_of_decode_error, fun x w w' i hw hw' h h' => ?_⟩
  · simp only [← opcodeValues_eq, ← Command.unusedNonzero_ofWord]
    exact ⟨decode_of_not_listed, fun _ => decode_of_unusedNonzero, exists_decode_ok⟩
  · exact (encode_of_decode hw h).symm.trans (encode_of_decode hw' h')

/-- Settles O5: the map lists fourteen values, none of them in the ranges. -/
theorem reservedOpcodesAreIllegal : Obligations.ReservedOpcodesAreIllegal := by
  refine ⟨length_filter_reserved, fun s w rest hc hi hr => ?_⟩
  have hnot : w % 256 ∉ opcodeValues := by
    simp only [opcodeValues_eq, List.mem_cons, List.not_mem_nil, or_false]
    omega
  exact step_of_decode_error hc hi (decode_of_not_listed hnot)

/-- Settles O6: the word fails the decoder's second step. -/
theorem nonzeroUnusedFieldsAreIllegal : Obligations.NonzeroUnusedFieldsAreIllegal := by
  intro s w rest hc hi a b c h
  exact step_of_decode_error hc hi (decode_of_unusedNonzero (Command.unusedNonzero_ofWord.2 h))

/-! ### All words -/

/-- Settles O40: the step raises one fault or answers `OK` once, and a command's effect touches neither the responses
nor the events. -/
theorem everyCommandIsAnsweredOnce : Obligations.EveryCommandIsAnsweredOnce := by
  intro s w rest hc hi
  rcases step_command_cases hc hi with ⟨f, h, -⟩ | ⟨i, u, v, -, hu, h⟩
  · exact ⟨_, _, h, State.responses_raise .., rfl, faultCode_le f, rfl⟩
  · obtain ⟨-, -, hin, hresp, -⟩ := succeeds_frame hu
    refine ⟨_, { op := BitVec.ofNat 8 (w % 256), status := statusOk, value := v }, h, ?_, rfl, Nat.zero_le 9, hin⟩
    rw [State.responses_respond, hresp, State.responses_setInputs]

end Sys2Proof.Machine
end

section
/-! PROOFS. Which words are a command of format `Z` or `A` (30_encoding.md R50, R51): of the words of a port's width,
the encoding of the command and no other. -/

namespace Sys2Proof

theorem decode_ok_iff {x : XLen} {w : Nat} {i : Instr} (hw : w < 2 ^ commandBits x) (hi : i.wf x = true) :
    decode x w = .ok i ↔ w = encode x i :=
  ⟨fun h => (encode_of_decode hw h).symm, fun h => h ▸ decode_encode hi⟩

theorem Command.toWord_unused_zero (x : XLen) (op : Byte) (a : Nat) :
    Command.toWord x { op := op, a := a, b := 0, c := 0 } = op.toNat + a * 2 ^ 8 := by
  simp [Command.toWord]

theorem Command.wf_unused_zero {x : XLen} {a : Nat} (op : Byte) (ha : a < 2 ^ x.bits) :
    Command.wf x { op := op, a := a, b := 0, c := 0 } = true := by
  simp [Command.wf, Word.fits_iff, ha]

theorem Machine.encodedA_of_command (op : Byte) {i : Nat → Instr}
    (h : ∀ n, (i n).command = { op := op, a := n, b := 0, c := 0 }) : encodedA op.toNat i := by
  intro x w n hw hn
  have hwf : (i n).wf x = true := Instr.wf_of_command (h n ▸ Command.wf_unused_zero op hn)
  rw [decode_ok_iff hw hwf, encode, h, Command.toWord_unused_zero]

theorem Machine.encodedZ_of_command (op : Byte) {i : Instr}
    (h : i.command = { op := op, a := 0, b := 0, c := 0 }) : encodedZ op.toNat i := by
  intro x w hw
  have hwf : i.wf x = true := Instr.wf_of_command (h ▸ Command.wf_unused_zero op (Nat.two_pow_pos _))
  rw [decode_ok_iff hw hwf, encode, h, Command.toWord_unused_zero, Nat.zero_mul, Nat.add_zero]

end Sys2Proof
end

section
/-! PROOFS. The lifecycle commands (40_lifecycle.md), and the frame of the four commands that write ring registers. -/

namespace Sys2Proof.Machine

/-! ### `CONSTRUCT` and `DESTROY` -/

/-- `CONSTRUCT` of a legal capacity succeeds where there is no ring (40_lifecycle.md R70). -/
theorem succeeds_construct {s : State} {n : Nat} (hv : s.valid = false) (h1 : 1 ≤ n) (hn : n ≤ s.cfg.storageBytes) :
    Succeeds s (.construct n) (s.setRing true n 0 0) n :=
  ⟨hv, Nat.one_le_iff_ne_zero.1 h1, hn, rfl, rfl⟩

/-- Settles O9: the premises of the clauses are those of `CONSTRUCT`'s faults and of its effect, and the new ring is
empty for the three queries. -/
theorem constructFollowsItsRule : Obligations.ConstructFollowsItsRule := by
  refine ⟨encodedA_of_command 0x01 fun _ => rfl, fun s n =>
    ⟨fun hv => ?alreadyConstructed, fun hv h0 => ?config, fun hv hn => ?resource, fun hv h1 hn => ?success⟩⟩
  case alreadyConstructed => exact exec_of_raises (f := .eAlreadyConstructed) (.inl ⟨hv, rfl⟩)
  case config => exact exec_of_raises (f := .eConfig) (.inr (.inl ⟨hv, h0, rfl⟩))
  case resource => exact exec_of_raises (f := .eResource) (.inr (.inr ⟨hv, by omega, hn, rfl⟩))
  case success =>
    exact ⟨exec_of_succeeds (succeeds_construct hv h1 hn),
      exec_of_succeeds (i := .isEmpty) ⟨rfl, rfl, rfl⟩,
      exec_of_succeeds (i := .filled) ⟨rfl, rfl, rfl⟩,
      exec_of_succeeds (i := .free) ⟨rfl, rfl, rfl⟩⟩

/-- Settles O10: `DESTROY` leaves no ring, which is all that `CONSTRUCT` asks of the state. -/
theorem destroyFollowsItsRule : Obligations.DestroyFollowsItsRule := by
  refine ⟨encodedZ_of_command 0x02 rfl, fun s => ⟨fun hv => ?_, fun hv => ⟨?_, fun n h1 hn => ?_⟩⟩⟩
  · exact exec_of_raises (f := .eNotConstructed) ⟨hv, rfl⟩
  · exact exec_of_succeeds (i := .destroy) ⟨hv, rfl, rfl⟩
  · exact exec_of_succeeds (succeeds_construct rfl h1 hn)

/-! ### `STATUS` -/

/-- The three fields of the value that `STATUS` reports (R72). -/
theorem statusWord_fields (valid : Bool) (err : Byte) :
    statusWord valid err < 2 ^ 16 ∧ statusWord valid err % 2 = boolWord valid ∧
      statusWord valid err / 2 % 2 ^ 7 = 0 ∧ statusWord valid err / 2 ^ 8 % 2 ^ 8 = err.toNat := by
  have herr := err.isLt
  have hvalid := boolWord_le_one valid
  unfold statusWord
  omega

/-- Settles O11: `STATUS` succeeds in every state, and its value is laid out by `statusWord_fields`. -/
theorem statusFollowsItsRule : Obligations.StatusFollowsItsRule :=
  ⟨encodedZ_of_command 0x03 rfl, fun s =>
    ⟨_, exec_of_succeeds (i := .status) ⟨rfl, rfl⟩, statusWord_fields s.valid s.err⟩⟩

/-! ### The frame -/

/-- Settles O24: a fault changes `ERR` alone, with a status that is not `OK`, and a successful command of the four
changes ring registers alone, an advance only its own. -/
theorem ringCommandsFrame : Obligations.RingCommandsFrame := by
  intro s t i n hi h
  rcases exec_cases i s with ⟨f, -, he⟩ | ⟨u, v, hu, he⟩
  · obtain rfl := Host.Outcome.next.inj (he.symm.trans h)
    refine ⟨fun _ => rfl, rfl, rfl, rfl, rfl, fun r hr hok => ?_, fun _ => ⟨rfl, rfl, rfl⟩, fun _ => ⟨rfl, rfl, rfl⟩⟩
    obtain rfl := List.singleton_inj.1 (List.append_cancel_left hr)
    exact absurd hok (faultCode_ne_zero f)
  · obtain rfl := Host.Outcome.next.inj (he.symm.trans h)
    have hcopy : i.opcode ≠ .copy := by
      intro hop
      obtain ⟨dst, src, size, rfl⟩ := exists_of_opcode_copy hop
      simp at hi
    have hring := succeeds_eq_setRing hcopy hu
    have hmem : u.mem = s.mem := by rw [hring, State.mem_setRing]
    have hbeats : u.beats = s.beats := by rw [hring, State.beats_setRing]
    obtain ⟨hcfg, herr, hinputs, -, hreads⟩ := succeeds_frame hu
    refine ⟨fun a => congrArg (Memory.read · a) hmem, hcfg, hinputs, hbeats, hreads, fun _ _ _ => herr, ?_, ?_⟩
    all_goals
      rintro rfl
      obtain ⟨-, -, rfl, -⟩ := hu
      exact ⟨rfl, rfl, rfl⟩

end Sys2Proof.Machine
end

section
/-! PROOFS. The eight ring queries (41_ring_queries.md): each answers from `CAP`, `HEAD` and `TAIL` where there is a
ring, and raises `E_NOT_CONSTRUCTED` where there is none. -/

namespace Sys2Proof.Machine

/-! ### What the eight queries share (R88) -/

/-- The eight queries, with the operand `k` where one has an operand. -/
def ringQueries (k : Nat) : List Instr :=
  [.isEmpty, .filled, .free, .capacity, .headToEnd, .tailToEnd, .nextHead k, .nextTail k]

/-- The answer of a query from `CAP`, `HEAD` and `TAIL` (R80 to R87); the other commands have none. -/
def queryAnswer (cap head tail : Nat) : Instr → Option Nat
  | .isEmpty => some (boolWord (head == tail))
  | .filled => some (ringFilled cap head tail)
  | .free => some (cap - ringFilled cap head tail)
  | .capacity => some cap
  | .headToEnd => some (cap - head)
  | .tailToEnd => some (cap - tail)
  | .nextHead k => some (ringWrap cap head k)
  | .nextTail k => some (ringWrap cap tail k)
  | _ => none

theorem exists_queryAnswer (cap head tail k : Nat) :
    ∀ i ∈ ringQueries k, ∃ v, queryAnswer cap head tail i = some v := by
  simp [ringQueries, queryAnswer]

theorem wf_of_mem_ringQueries {x : XLen} {k : Nat} (hk : k < 2 ^ x.bits) : ∀ i ∈ ringQueries k, i.wf x = true := by
  simp [ringQueries, Instr.wf, Word.fits_iff, hk]

/-- A query succeeds with its answer where there is a ring. -/
theorem succeeds_query {s : State} {i : Instr} {v : Nat} (h : queryAnswer s.cap s.head s.tail i = some v)
    (hv : s.valid = true) : Succeeds s i s v := by
  cases i with
  | isEmpty | filled | free | capacity | headToEnd | tailToEnd | nextHead k | nextTail k =>
    exact ⟨hv, rfl, (Option.some.inj h).symm⟩
  | construct | destroy | status | advHead | advTail | copy => exact nomatch h

/-- A query faults where there is no ring. -/
theorem raises_query {s : State} {i : Instr} {v : Nat} (h : queryAnswer s.cap s.head s.tail i = some v)
    (hv : s.valid = false) : Raises s i .eNotConstructed := by
  cases i with
  | isEmpty | filled | free | capacity | headToEnd | tailToEnd | nextHead k | nextTail k => exact ⟨hv, rfl⟩
  | construct | destroy | status | advHead | advTail | copy => exact nomatch h

theorem exec_query_valid {s : State} {i : Instr} {v : Nat} (h : queryAnswer s.cap s.head s.tail i = some v)
    (hv : s.valid = true) : exec i s = .next (s.answered i.opcode.code v) :=
  exec_of_succeeds (succeeds_query h hv)

theorem exec_query_not_valid {s : State} {i : Instr} {v : Nat} (h : queryAnswer s.cap s.head s.tail i = some v)
    (hv : s.valid = false) : exec i s = .next (s.faulted i.opcode.code 0x04 i.command.a) :=
  exec_of_raises (raises_query h hv)

theorem Command.a_lt_of_wf {x : XLen} {k : Command} (h : k.wf x = true) : k.a < 2 ^ x.bits := by
  simp only [Command.wf, Bool.and_eq_true, Word.fits_iff] at h
  exact h.1.1

/-- Settles O21: with a ring the response is `OK` with the answer, without one it is `E_NOT_CONSTRUCTED` with the
operand, and neither sees more of the state than `VALID`, `CAP`, `HEAD` and `TAIL`. -/
theorem queriesArePure : Obligations.QueriesArePure := by
  intro s i k hi
  obtain ⟨v, hq⟩ := exists_queryAnswer s.cap s.head s.tail k i hi
  have hwf : k < 2 ^ s.cfg.xlen.bits → i.wf s.cfg.xlen = true := fun hk => wf_of_mem_ringQueries hk i hi
  rcases s.valid.eq_false_or_eq_true with hv | hv
  · refine ⟨_, { op := i.opcode.code, status := 0x00, value := v }, exec_query_valid hq hv, rfl, fun _ => rfl,
      fun _ => ⟨rfl, rfl⟩, fun hf => absurd (hv.symm.trans hf) nofun,
      fun hs hk => succeeds_value_lt hs (hwf hk) (succeeds_query hq hv), ?_⟩
    intro s' hvalid hcap hhead htail
    exact ⟨_, exec_query_valid (by rw [hcap, hhead, htail, hq]) (hvalid.trans hv), rfl⟩
  · refine ⟨_, { op := i.opcode.code, status := 0x04, value := i.command.a }, exec_query_not_valid hq hv, rfl,
      fun _ => rfl, fun ht => absurd (hv.symm.trans ht) nofun, fun _ => rfl,
      fun _ hk => Command.a_lt_of_wf (Instr.command_wf (hwf hk)), ?_⟩
    intro s' hvalid hcap hhead htail
    exact ⟨_, exec_query_not_valid (by rw [hcap, hhead, htail, hq]) (hvalid.trans hv), rfl⟩

/-! ### How much the ring holds -/

theorem boolWord_beq (m n : Nat) : boolWord (m == n) = if m = n then 1 else 0 := by
  simp [boolWord]

/-- A ring of one byte has one position for `HEAD` and `TAIL`. -/
theorem State.head_eq_tail_of_cap_one {s : State} (h : s.ringOk) (hv : s.valid = true) (hc : s.cap = 1) :
    s.head = s.tail := by
  obtain ⟨-, -, hh, ht⟩ := s.ringOk_valid h hv
  omega

/-- Settles O12: `filled` is 0 in range exactly when `HEAD = TAIL`. -/
theorem isEmptyFollowsItsRule : Obligations.IsEmptyFollowsItsRule := by
  refine ⟨encodedZ_of_command 0x10 rfl, fun s =>
    ⟨exec_query_not_valid (i := .isEmpty) rfl, fun hv => ?_, fun hr hv => ?_⟩⟩
  · rw [← boolWord_beq]
    exact exec_query_valid (i := .isEmpty) rfl hv
  · obtain ⟨-, -, -, ht⟩ := s.ringOk_valid hr hv
    exact ⟨(ringFilled_eq_zero ht).symm, s.head_eq_tail_of_cap_one hr hv⟩

/-- Settles O13: the two clauses are the two branches of `ringFilled`. -/
theorem filledFollowsItsRule : Obligations.FilledFollowsItsRule := by
  refine ⟨encodedZ_of_command 0x11 rfl, fun s =>
    ⟨exec_query_not_valid (i := .filled) rfl, fun hv hle => ?_, fun hv hlt => ?_, fun hr hv => ?_⟩⟩
  · exact exec_query_valid (i := .filled) (congrArg some (if_pos hle)) hv
  · exact exec_query_valid (i := .filled) (congrArg some (if_neg hlt.not_ge)) hv
  · exact Nat.le_sub_one_of_lt (s.filled_lt hr hv)

/-- Settles O14: `free` is at least the reserved byte, and with `filled` it is the whole ring. -/
theorem freeFollowsItsRule : Obligations.FreeFollowsItsRule :=
  ⟨encodedZ_of_command 0x12 rfl, fun s =>
    ⟨exec_query_not_valid (i := .free) rfl, exec_query_valid (i := .free) rfl,
      fun hr hv => ⟨s.one_le_free hr hv, Nat.sub_le _ _, s.filled_add_free hr hv⟩⟩⟩

/-- Settles O15: the range of the answer is the range of `CAP` (10_state.md R12). -/
theorem capacityFollowsItsRule : Obligations.CapacityFollowsItsRule := by
  refine ⟨encodedZ_of_command 0x13 rfl, fun s =>
    ⟨exec_query_not_valid (i := .capacity) rfl, exec_query_valid (i := .capacity) rfl, fun hr hv => ?_⟩⟩
  obtain ⟨h1, hn, -, -⟩ := s.ringOk_valid hr hv
  exact ⟨h1, hn⟩

/-! ### The runs to the end of the storage -/

/-- From a position there is at least one byte to the end of the storage, and never more than all of it. -/
theorem toEnd_bounds {cap p : Nat} (hp : p < cap) : 1 ≤ cap - p ∧ cap - p ≤ cap ∧ cap - p + p = cap := by
  omega

/-- Settles O16: `HEAD` is a position. -/
theorem headToEndFollowsItsRule : Obligations.HeadToEndFollowsItsRule := by
  refine ⟨encodedZ_of_command 0x14 rfl, fun s =>
    ⟨exec_query_not_valid (i := .headToEnd) rfl, exec_query_valid (i := .headToEnd) rfl, fun hr hv => ?_⟩⟩
  obtain ⟨-, -, hh, -⟩ := s.ringOk_valid hr hv
  exact toEnd_bounds hh

/-- Settles O17: `TAIL` is a position. -/
theorem tailToEndFollowsItsRule : Obligations.TailToEndFollowsItsRule := by
  refine ⟨encodedZ_of_command 0x15 rfl, fun s =>
    ⟨exec_query_not_valid (i := .tailToEnd) rfl, exec_query_valid (i := .tailToEnd) rfl, fun hr hv => ?_⟩⟩
  obtain ⟨-, -, -, ht⟩ := s.ringOk_valid hr hv
  exact toEnd_bounds ht

/-! ### The positions ahead -/

/-- Any number of times round the ring is the position itself. -/
theorem ringWrap_mul_cap {cap p : Nat} (hp : p < cap) (k : Nat) : ringWrap cap p (k * cap) = p := by
  rw [ringWrap, Nat.add_mul_mod_self_right, Nat.mod_eq_of_lt hp]

/-- Settles O18: `wrap` answers a position, and `HEAD` is one. -/
theorem nextHeadFollowsItsRule : Obligations.NextHeadFollowsItsRule := by
  refine ⟨encodedA_of_command 0x16 fun _ => rfl, fun s k =>
    ⟨exec_query_not_valid (i := .nextHead k) rfl, exec_query_valid (i := .nextHead k) rfl, fun hr hv => ?_⟩⟩
  obtain ⟨-, -, hh, -⟩ := s.ringOk_valid hr hv
  exact ⟨s.wrap_lt hr hv s.head k, ringWrap_mul_cap hh k⟩

/-- Settles O19: `wrap` answers a position, and `TAIL` is one. -/
theorem nextTailFollowsItsRule : Obligations.NextTailFollowsItsRule := by
  refine ⟨encodedA_of_command 0x17 fun _ => rfl, fun s k =>
    ⟨exec_query_not_valid (i := .nextTail k) rfl, exec_query_valid (i := .nextTail k) rfl, fun hr hv => ?_⟩⟩
  obtain ⟨-, -, -, ht⟩ := s.ringOk_valid hr hv
  exact ⟨s.wrap_lt hr hv s.tail k, ringWrap_mul_cap ht k⟩

end Sys2Proof.Machine
end

section
/-! PROOFS. The two ring advances (42_ring_advance.md): an advance past its limit faults, one within it moves its own
register by `wrap`, and either way the ring stays in range. -/

namespace Sys2Proof.Machine

/-! ### `ADV_HEAD` and `ADV_TAIL` on the whole state -/

theorem exec_advHead_overrun {s : State} {n : Nat} (hv : s.valid = true) (hn : s.free ≤ n) :
    exec (.advHead n) s = .next (s.faulted 0x20 0x06 n) :=
  exec_of_raises (f := .eOverrun) (.inr ⟨hv, hn, rfl⟩)

theorem exec_advTail_underrun {s : State} {n : Nat} (hv : s.valid = true) (hn : s.filled < n) :
    exec (.advTail n) s = .next (s.faulted 0x21 0x07 n) :=
  exec_of_raises (f := .eUnderrun) (.inr ⟨hv, hn, rfl⟩)

theorem exec_advHead_within {s : State} {n : Nat} (hv : s.valid = true) (hn : n < s.free) :
    exec (.advHead n) s = .next ((s.setHead (s.wrap s.head n)).answered 0x20 (s.wrap s.head n)) :=
  exec_of_succeeds (i := .advHead n) ⟨hv, hn, rfl, rfl⟩

theorem exec_advTail_within {s : State} {n : Nat} (hv : s.valid = true) (hn : n ≤ s.filled) :
    exec (.advTail n) s = .next ((s.setTail (s.wrap s.tail n)).answered 0x21 (s.wrap s.tail n)) :=
  exec_of_succeeds (i := .advTail n) ⟨hv, hn, rfl, rfl⟩

theorem State.wrap_head_zero {s : State} (h : s.ringOk) (hv : s.valid = true) : s.wrap s.head 0 = s.head := by
  obtain ⟨-, -, hh, -⟩ := s.ringOk_valid h hv
  exact ringWrap_zero hh

theorem State.wrap_tail_zero {s : State} (h : s.ringOk) (hv : s.valid = true) : s.wrap s.tail 0 = s.tail := by
  obtain ⟨-, -, -, ht⟩ := s.ringOk_valid h hv
  exact ringWrap_zero ht

/-- Settles O22: the five clauses are `E_NOT_CONSTRUCTED`, the two sides of `free`, and the distances 0 and `CAP` or
more, of which the reserved byte allows the first and `free ≤ CAP` forbids the others. -/
theorem advHeadFollowsItsRule : Obligations.AdvHeadFollowsItsRule := by
  refine ⟨encodedA_of_command 0x20 fun _ => rfl, fun s n =>
    ⟨fun hv => ?notConstructed, exec_advHead_overrun, exec_advHead_within, fun hr hv => ?zero, fun _ hv hn => ?cap⟩⟩
  case notConstructed => exact exec_of_raises (f := .eNotConstructed) (.inl ⟨hv, rfl⟩)
  case zero =>
    rw [exec_advHead_within hv (s.one_le_free hr hv), s.wrap_head_zero hr hv]
    rfl
  case cap => exact exec_advHead_overrun hv ((Nat.sub_le _ _).trans hn)

/-- Settles O23: the six clauses are `E_NOT_CONSTRUCTED`, the two sides of `filled`, and the distances 0, `filled` and
`CAP` or more, of which the last are above `filled`. -/
theorem advTailFollowsItsRule : Obligations.AdvTailFollowsItsRule := by
  refine ⟨encodedA_of_command 0x21 fun _ => rfl, fun s n =>
    ⟨fun hv => ?notConstructed, exec_advTail_underrun, exec_advTail_within, fun hr hv => ?zero,
      fun hr hv => ?filled, fun hr hv hn => ?cap⟩⟩
  case notConstructed => exact exec_of_raises (f := .eNotConstructed) (.inl ⟨hv, rfl⟩)
  case zero =>
    rw [exec_advTail_within hv (Nat.zero_le _), s.wrap_tail_zero hr hv]
    rfl
  case filled =>
    rw [exec_advTail_within hv le_rfl, s.wrap_tail_filled hr hv]
    rfl
  case cap => exact exec_advTail_underrun hv ((s.filled_lt hr hv).trans_le hn)

/-! ### The ring invariants, and how far `filled` and `free` move (R102) -/

/-- An advance, successful or not, keeps `VALID` and `CAP` (42_ring_advance.md R103). -/
theorem exec_advance_frame {i : Instr} {n : Nat} (hi : i = .advHead n ∨ i = .advTail n) (s : State) :
    ∃ t, exec i s = .next t ∧ t.valid = s.valid ∧ t.cap = s.cap := by
  rcases hi with rfl | rfl
  · obtain ⟨t, he, hvalid, hc, -⟩ := exec_advHead_frame n s
    exact ⟨t, he, hvalid, hc⟩
  · rcases exec_cases (.advTail n) s with ⟨f, -, he⟩ | ⟨u, v, ⟨-, -, rfl, -⟩, he⟩ <;> exact ⟨_, he, rfl, rfl⟩

/-- In range `HEAD` meets `TAIL` exactly when nothing is held (10_state.md R23). -/
theorem State.head_eq_tail_iff {s : State} (h : s.ringOk) (hv : s.valid = true) : s.head = s.tail ↔ s.filled = 0 := by
  obtain ⟨-, -, -, ht⟩ := s.ringOk_valid h hv
  exact (ringFilled_eq_zero ht).symm

/-- A successful `ADV_HEAD n` leaves a ring in range that holds `n` bytes more. -/
theorem exec_advHead_filled {s : State} {n : Nat} (hr : s.ringOk) (hv : s.valid = true) (hn : n < s.free) :
    ∃ t, exec (.advHead n) s = .next t ∧ t.ringOk ∧ t.valid = true ∧ t.cap = s.cap ∧ t.filled = s.filled + n :=
  have he := exec_advHead_within hv hn
  ⟨_, he, exec_ringOk hr he, hv, rfl, State.filled_setHead_wrap hr hv hn⟩

/-- A successful `ADV_TAIL n` leaves a ring in range that holds `n` bytes less. -/
theorem exec_advTail_filled {s : State} {n : Nat} (hr : s.ringOk) (hv : s.valid = true) (hn : n ≤ s.filled) :
    ∃ t, exec (.advTail n) s = .next t ∧ t.ringOk ∧ t.valid = true ∧ t.cap = s.cap ∧ t.filled = s.filled - n :=
  have he := exec_advTail_within hv hn
  ⟨_, he, exec_ringOk hr he, hv, rfl, State.filled_setTail_wrap hr hv hn⟩

/-- Settles O25: INV1 to INV5 hold of any ring in range, which an advance leaves; and as `filled` and `free` make up
`CAP` before and after, `free` loses what `filled` gains. -/
theorem advancesMoveFilled : Obligations.AdvancesMoveFilled := by
  intro s n hr hv
  have hsum := s.filled_add_free hr hv
  refine ⟨fun i hi => ?invariants, fun hn => ?head, fun hn => ?tail⟩
  case invariants =>
    obtain ⟨t, he, hvalid, hc⟩ := exec_advance_frame hi s
    have htr : t.ringOk := exec_ringOk hr he
    have htv : t.valid = true := hvalid.trans hv
    obtain ⟨h1, hs, hh, ht⟩ := t.ringOk_valid htr htv
    exact ⟨t, he, htv, hc, h1, hs, hh, ht, t.filled_add_free htr htv, Nat.le_sub_one_of_lt (t.filled_lt htr htv),
      t.one_le_free htr htv, Nat.sub_le _ _, Nat.sub_add_cancel hh.le, Nat.sub_add_cancel ht.le,
      t.head_eq_tail_iff htr htv⟩
  case head =>
    obtain ⟨t, he, htr, htv, hc, hfilled⟩ := exec_advHead_filled hr hv hn
    have htsum := t.filled_add_free htr htv
    refine ⟨t, he, hfilled, by omega, ?_⟩
    rw [t.head_eq_tail_iff htr htv, hfilled]
  case tail =>
    obtain ⟨t, he, htr, htv, hc, hfilled⟩ := exec_advTail_filled hr hv hn
    have htsum := t.filled_add_free htr htv
    refine ⟨t, he, by omega, by omega, ?_⟩
    rw [t.head_eq_tail_iff htr htv]
    omega

end Sys2Proof.Machine
end

section
/-! PROOFS. The chunk schedule of 43_tiered_copy.md R115 to R117: the loop over the widths, and its closed form. -/

namespace Sys2Proof.Machine

/-! ### The loop -/

/-- While `rem ≥ w` the loop takes a chunk of `w` bytes (R116). -/
theorem schedule_cons_of_le {w rem : Nat} (ws : List Nat) (hw : 1 ≤ w) (h : w ≤ rem) :
    schedule (w :: ws) rem = w :: schedule (w :: ws) (rem - w) := by
  have hdiv : rem / w = (rem - w) / w + 1 := Nat.div_eq_sub_div hw h
  have hmod : rem % w = (rem - w) % w := Nat.mod_eq_sub_mod h
  rw [schedule, hdiv, hmod, List.replicate_succ]
  rfl

/-- For `rem < w` the rest goes to the next narrower width (R116). -/
theorem schedule_cons_of_lt {w rem : Nat} (ws : List Nat) (h : rem < w) : schedule (w :: ws) rem = schedule ws rem := by
  rw [schedule, Nat.div_eq_of_lt h, Nat.mod_eq_of_lt h]
  rfl

theorem mem_widthsPresent {v : VLen} {w : Nat} :
    w ∈ widthsPresent v ↔ w ∈ [64, 32, 16, 8, 4, 1] ∧ 8 * w ≤ v.bits := by
  simp [widthsPresent, copyWidths]

/-- Settles O31: the widths are the filter of R115, and the quotient and remainder of a width are its loop. -/
theorem scheduleFollowsTheLoop : Obligations.ScheduleFollowsTheLoop :=
  ⟨by decide, by decide, by decide, by decide, fun _ _ => mem_widthsPresent, fun _ => rfl,
    fun _ ws _ hw => ⟨schedule_cons_of_le ws hw, schedule_cons_of_lt ws⟩⟩

/-! ### The closed form -/

/-- Below the widest width the loop takes a chunk of `2 ^ k` bytes exactly where bit `k` is set (R117). -/
theorem schedule_cons_two_pow (k r : Nat) (ws : List Nat) :
    schedule (2 ^ k :: ws) (r % 2 ^ (k + 1)) = List.replicate (bitOf r k) (2 ^ k) ++ schedule ws (r % 2 ^ k) := by
  have hdiv : r % 2 ^ (k + 1) / 2 ^ k = bitOf r k := Nat.mod_mul_right_div_self r (2 ^ k) 2
  have hmod : r % 2 ^ (k + 1) % 2 ^ k = r % 2 ^ k := Nat.mod_mul_right_mod r (2 ^ k) 2
  rw [schedule, hdiv, hmod]

theorem schedule_one (r : Nat) : schedule [1] r = List.replicate r 1 := by simp [schedule]

/-- The loop below 64 bytes: one chunk for each bit that is set, then the chunks of 1 byte (R117). -/
theorem schedule_of_lt_64 {r : Nat} (h : r < 64) :
    schedule [32, 16, 8, 4, 1] r = List.replicate (bitOf r 5) 32 ++ List.replicate (bitOf r 4) 16 ++
      List.replicate (bitOf r 3) 8 ++ List.replicate (bitOf r 2) 4 ++ List.replicate (r % 4) 1 := by
  have h32 := schedule_cons_two_pow 5 r [16, 8, 4, 1]
  have h16 := schedule_cons_two_pow 4 r [8, 4, 1]
  have h8 := schedule_cons_two_pow 3 r [4, 1]
  have h4 := schedule_cons_two_pow 2 r [1]
  simp only [Nat.reducePow, Nat.reduceAdd] at h32 h16 h8 h4
  rw [Nat.mod_eq_of_lt h] at h32
  rw [h32, h16, h8, h4, schedule_one]
  simp only [List.append_assoc]

theorem width_pos (v : VLen) : 0 < v.bits / 8 := by cases v <;> decide

theorem width_le (v : VLen) : v.bits / 8 ≤ 64 := by cases v <;> decide

theorem widthsPresent_cons (v : VLen) : widthsPresent v = v.bits / 8 :: (widthsPresent v).tail := by
  cases v <;> decide

/-- Widths above the bytes that are left take no chunk, so after the widest width every block may go through all of the
narrower ones. -/
theorem schedule_tail_widthsPresent {v : VLen} {r : Nat} (h : r < v.bits / 8) :
    schedule (widthsPresent v).tail r = schedule [32, 16, 8, 4, 1] r := by
  cases v with
  | v512 => rfl
  | v256 =>
    have h : r < 32 := h
    rw [schedule_cons_of_lt _ h]
    rfl
  | v128 =>
    have h : r < 16 := h
    have h32 : r < 32 := by omega
    rw [schedule_cons_of_lt _ h32, schedule_cons_of_lt _ h]
    rfl
  | v64 =>
    have h : r < 8 := h
    have h32 : r < 32 := by omega
    have h16 : r < 16 := by omega
    rw [schedule_cons_of_lt _ h32, schedule_cons_of_lt _ h16, schedule_cons_of_lt _ h]
    rfl

theorem schedule_eq_closedSchedule (v : VLen) (size : Nat) :
    schedule (widthsPresent v) size = closedSchedule v size := by
  have hr : size % (v.bits / 8) < v.bits / 8 := Nat.mod_lt size (width_pos v)
  rw [widthsPresent_cons, schedule, schedule_tail_widthsPresent hr, schedule_of_lt_64 (hr.trans_le (width_le v))]
  simp only [closedSchedule, List.append_assoc]

theorem length_schedule (v : VLen) (size : Nat) : (schedule (widthsPresent v) size).length = chunkCount v size := by
  rw [schedule_eq_closedSchedule]
  simp [closedSchedule, chunkCount, Nat.add_assoc]

/-- The chunk after the first `j` starts at their sum and ends within the sum of all. -/
theorem sum_take_add_le {ws : List Nat} {j w : Nat} (h : ws[j]? = some w) : (ws.take j).sum + w ≤ ws.sum := by
  have hsucc : (ws.take (j + 1)).sum = (ws.take j).sum + w := by simp [List.take_add_one, h]
  have hsplit := List.sum_take_add_sum_drop ws (j + 1)
  omega

/-- Settles O32: the loop is the closed form, whose length is counted run by run, and the chunks add up to `size`. -/
theorem scheduleClosedForm : Obligations.ScheduleClosedForm := by
  intro v size
  have hsum := schedule_widthsPresent_sum v size
  exact ⟨schedule_eq_closedSchedule v size, length_schedule v size, hsum,
    fun j w h => (sum_take_add_le h).trans_eq hsum⟩

theorem bitOf_le_one (r k : Nat) : bitOf r k ≤ 1 := Nat.le_of_lt_succ (Nat.mod_lt _ two_pos)

/-- At most one chunk of each of four widths and three of 1 byte follow the widest (R124, 70_reset_and_hazards.md
R160). -/
theorem chunkCount_le (v : VLen) (size : Nat) : chunkCount v size ≤ size / (v.bits / 8) + 7 := by
  have h5 := bitOf_le_one (size % (v.bits / 8)) 5
  have h4 := bitOf_le_one (size % (v.bits / 8)) 4
  have h3 := bitOf_le_one (size % (v.bits / 8)) 3
  have h2 := bitOf_le_one (size % (v.bits / 8)) 2
  have h1 : size % (v.bits / 8) % 4 < 4 := Nat.mod_lt _ (by decide)
  simp only [chunkCount]
  omega

end Sys2Proof.Machine
end

section
/-! PROOFS. The datapath's state machine (43_tiered_copy.md R124): each transition keeps what the chunks still to move
will have done, and comes one nearer to `DONE`. -/

namespace Sys2Proof.Machine

/-! ### The work left -/

/-- The widths of a state and of those after it, in the order of the cascade (R124). -/
def tierWidths : CopyTier → List Nat
  | .T64 => [64, 32, 16, 8, 4, 1]
  | .T32 => [32, 16, 8, 4, 1]
  | .T16 => [16, 8, 4, 1]
  | .S8 => [8, 4, 1]
  | .S4 => [4, 1]
  | .S1 => [1]
  | .DONE => []

theorem tierWidths_cons {t : CopyTier} {w : Nat} (h : tierWidth t = some w) :
    1 ≤ w ∧ tierWidths t = w :: tierWidths (tierNext t) := by
  cases t <;> cases h <;> exact ⟨by decide, rfl⟩

theorem eq_DONE_of_tierWidth {t : CopyTier} (h : tierWidth t = none) : t = .DONE := by
  cases t with
  | DONE => rfl
  | T64 | T32 | T16 | S8 | S4 | S1 => exact nomatch h

theorem widthsPresent_eq_tierWidths (v : VLen) : widthsPresent v = tierWidths (tierEntry v) := by
  cases v <;> decide

/-- The chunks the datapath has still to move. -/
def Datapath.chunksLeft (d : Datapath) : List Nat := schedule (tierWidths d.tier) d.rem

/-- The transitions to `DONE`: one for each chunk and one for each hand-over to a narrower width. -/
def Datapath.ticksLeft (d : Datapath) : Nat := d.chunksLeft.length + (tierWidths d.tier).length

/-- What the datapath comes to when it has moved its chunks: `off`, `rem`, the memory and the beats. -/
def Datapath.outcome (dst src : Nat) (d : Datapath) : Nat × Nat × Memory × List Beat :=
  (d.off + d.chunksLeft.sum, d.rem - d.chunksLeft.sum, (moveChunks dst src d.off d.chunksLeft d.mem).1,
    d.beats ++ (moveChunks dst src d.off d.chunksLeft d.mem).2)

theorem Datapath.outcome_of_done {d : Datapath} (h : d.tier = .DONE) (dst src : Nat) :
    d.outcome dst src = (d.off, d.rem, d.mem, d.beats) := by
  simp [Datapath.outcome, Datapath.chunksLeft, h, tierWidths, schedule, moveChunks]

/-- A transition out of a state other than `DONE` keeps the outcome and is one of the transitions left. -/
theorem datapathTick_outcome {d : Datapath} {w : Nat} (hw : tierWidth d.tier = some w) (dst src : Nat) :
    (datapathTick dst src d).outcome dst src = d.outcome dst src ∧
      (datapathTick dst src d).ticksLeft + 1 = d.ticksLeft := by
  obtain ⟨h1, hws⟩ := tierWidths_cons hw
  rcases Nat.lt_or_ge d.rem w with hr | hr
  · have hleft : d.chunksLeft = (datapathTick dst src d).chunksLeft := by
      rw [datapathTick_narrow hw hr, Datapath.chunksLeft, hws, schedule_cons_of_lt _ hr]
      rfl
    rw [Datapath.outcome, Datapath.outcome, Datapath.ticksLeft, Datapath.ticksLeft, ← hleft, hws,
      datapathTick_narrow hw hr]
    exact ⟨rfl, rfl⟩
  · have hleft : d.chunksLeft = w :: (datapathTick dst src d).chunksLeft := by
      rw [datapathTick_move hw hr, Datapath.chunksLeft, hws, schedule_cons_of_le _ h1 hr, ← hws]
      rfl
    rw [Datapath.outcome, Datapath.outcome, Datapath.ticksLeft, Datapath.ticksLeft, hleft, datapathTick_move hw hr]
    simp [moveChunks, Nat.add_assoc, Nat.sub_sub, Nat.add_comm 1]

/-- The datapath comes to `DONE` in the transitions left, with its outcome. -/
theorem datapathRun_ticksLeft (dst src : Nat) {n : Nat} {d : Datapath} (h : d.ticksLeft = n) :
    (datapathRun dst src n d).tier = .DONE ∧ (datapathRun dst src n d).outcome dst src = d.outcome dst src := by
  induction n generalizing d with
  | zero =>
    cases hw : tierWidth d.tier with
    | none => exact ⟨eq_DONE_of_tierWidth hw, rfl⟩
    | some w => exact absurd ((datapathTick_outcome hw dst src).2.trans h) (Nat.succ_ne_zero _)
  | succ n ih =>
    cases hw : tierWidth d.tier with
    | none => simp [Datapath.ticksLeft, Datapath.chunksLeft, eq_DONE_of_tierWidth hw, tierWidths, schedule] at h
    | some w =>
      obtain ⟨hout, hticks⟩ := datapathTick_outcome hw dst src
      obtain ⟨hdone, hrun⟩ := ih (d := datapathTick dst src d) (by omega)
      exact ⟨hdone, hrun.trans hout⟩

/-! ### The whole of a `COPY` -/

theorem chunksLeft_datapathStart (v : VLen) (size V : Nat) (m : Memory) :
    (datapathStart v size V m).chunksLeft = schedule (widthsPresent v) size := by
  rw [widthsPresent_eq_tierWidths]
  rfl

theorem length_tierWidths_le (t : CopyTier) : (tierWidths t).length ≤ 6 := by
  cases t <;> decide

theorem ticksLeft_datapathStart_le (v : VLen) (size V : Nat) (m : Memory) :
    (datapathStart v size V m).ticksLeft ≤ size / (v.bits / 8) + 13 := by
  have hchunks := chunkCount_le v size
  have hwidths := length_tierWidths_le (datapathStart v size V m).tier
  rw [Datapath.ticksLeft, chunksLeft_datapathStart, length_schedule]
  omega

theorem outcome_datapathStart (v : VLen) (dst src size V : Nat) (m : Memory) :
    (datapathStart v size V m).outcome dst src =
      (size, 0, (copyMove v dst src size m).1, (copyMove v dst src size m).2) := by
  rw [Datapath.outcome, chunksLeft_datapathStart, schedule_widthsPresent_sum]
  simp [datapathStart, copyMove]

/-- Settles O36: the transitions left at the start are within the bound, and the outcome at the start is that of the
whole copy. -/
theorem datapathMeetsTheSchedule : Obligations.DatapathMeetsTheSchedule := by
  intro v dst src size V m
  obtain ⟨hdone, hout⟩ := datapathRun_ticksLeft dst src (d := datapathStart v size V m) rfl
  rw [Datapath.outcome_of_done hdone, outcome_datapathStart] at hout
  simp only [Prod.mk.injEq] at hout
  obtain ⟨hoff, hrem, hmem, hbeats⟩ := hout
  exact ⟨_, ticksLeft_datapathStart_le v size V m, hdone, hrem, hoff, hmem, hbeats⟩

end Sys2Proof.Machine
end

section
/-! PROOFS. The command `COPY` (43_tiered_copy.md R110 to R122): its three ends, what a copy past its checks leaves, and
what of the state it does not see. -/

namespace Sys2Proof.Machine

/-! ### The three ends of a `COPY` -/

theorem exec_copy_zero (s : State) (dst src : Nat) : exec (.copy dst src 0) s = .next (s.answered 0x30 dst) :=
  exec_of_succeeds (i := .copy dst src 0) (.inl ⟨rfl, rfl, rfl⟩)

theorem exec_copy_outside {s : State} {dst src size : Nat} (h1 : 1 ≤ size)
    (h : s.cfg.memBytes < src + size ∨ s.cfg.memBytes < dst + size) :
    exec (.copy dst src size) s = .next (s.faulted 0x30 0x08 dst) :=
  exec_of_raises (f := .eBounds) (.inl ⟨by omega, by omega, rfl⟩)

theorem exec_copy_overlap {s : State} {dst src size : Nat} (h1 : 1 ≤ size) (hsrc : src + size ≤ s.cfg.memBytes)
    (hdst : dst + size ≤ s.cfg.memBytes) (hd : dst < src + size) (hs : src < dst + size) :
    exec (.copy dst src size) s = .next (s.faulted 0x30 0x09 dst) :=
  exec_of_raises (f := .eAlias) (.inr ⟨by omega, ⟨hsrc, hdst⟩, ⟨hd, hs⟩, rfl⟩)

/-- A `COPY` past its checks succeeds (R113, R114). -/
theorem succeeds_copy {s : State} {dst src size : Nat} (h1 : 1 ≤ size) (hsrc : src + size ≤ s.cfg.memBytes)
    (hdst : dst + size ≤ s.cfg.memBytes) (hapart : src + size ≤ dst ∨ dst + size ≤ src) :
    Succeeds s (.copy dst src size) ((s.setMem (copyMove s.cfg.vlen dst src size s.mem).1).recordBeats
      (copyMove s.cfg.vlen dst src size s.mem).2) dst :=
  .inr ⟨by omega, ⟨hsrc, hdst⟩, by omega, rfl, rfl⟩

/-- The bytes a copy leaves, the beats it is planned to issue, and the answer `dst`. -/
def State.copied (s : State) (dst src size : Nat) : State :=
  { s with
    mem := (copyMove s.cfg.vlen dst src size s.mem).1
    beats := s.beats ++ plannedBeats s.mem dst src 0 (schedule (widthsPresent s.cfg.vlen) size) }.answered 0x30 dst

theorem exec_copy_moves {s : State} {dst src size : Nat} (h1 : 1 ≤ size) (hsrc : src + size ≤ s.cfg.memBytes)
    (hdst : dst + size ≤ s.cfg.memBytes) (hapart : src + size ≤ dst ∨ dst + size ≤ src) :
    exec (.copy dst src size) s = .next (s.copied dst src size) := by
  rw [State.copied, ← copyMove_beats hapart]
  exact exec_of_succeeds (succeeds_copy h1 hsrc hdst hapart)

/-- Settles O28: the effect of a `COPY` of nothing is the state itself. -/
theorem copyOfNothingIsANoOp : Obligations.CopyOfNothingIsANoOp := exec_copy_zero

/-- Settles O29: the premises of the clauses are those of the two faults and of a copy that moves. -/
theorem copyChecksItsRegions : Obligations.CopyChecksItsRegions := fun _ _ _ _ h1 =>
  ⟨exec_copy_outside h1, exec_copy_overlap h1, fun hsrc hdst hapart =>
    ⟨_, exec_copy_moves h1 hsrc hdst hapart, rfl, rfl⟩⟩

/-- Every field of a well-formed `COPY` stands in its word (30_encoding.md R50, R51, format `ABC`). -/
theorem encodedABC_copy : encodedABC 0x30 .copy := by
  intro x w a b c hw ha hb hc
  have hwf : (Instr.copy a b c).wf x = true := by simp [Instr.wf, Word.fits_iff, ha, hb, hc]
  exact decode_ok_iff hw hwf

/-- Settles O30: the three ends, and for a copy that moves what `copyMove` does to a byte inside and outside the
destination. -/
theorem copyMovesTheBytes : Obligations.CopyMovesTheBytes := by
  refine ⟨encodedABC_copy, fun s dst src size =>
    ⟨fun h0 => ?_, exec_copy_outside, exec_copy_overlap, fun h1 hsrc hdst hapart => ?_⟩⟩
  · subst h0
    exact exec_copy_zero s dst src
  · refine ⟨_, exec_copy_moves h1 hsrc hdst hapart, fun a hle hlt => ?_, fun a => copyMove_read_outside hapart s.mem,
      rfl, rfl⟩
    exact (copyMove_read hapart s.mem a).trans (if_pos ⟨hle, hlt⟩)

/-! ### The beats -/

theorem length_plannedBeats (m : Memory) (dst src off : Nat) (ws : List Nat) :
    (plannedBeats m dst src off ws).length = 2 * ws.length := by
  induction ws generalizing off with
  | nil => rfl
  | cons w ws ih =>
    simp only [plannedBeats, List.length_cons, ih]
    omega

/-- The planned read beats lie in the source region and the planned write beats in the destination region (R118). -/
theorem plannedBeats_inside {m : Memory} {dst src : Nat} {ws : List Nat} {b : Beat}
    (hb : b ∈ plannedBeats m dst src 0 ws) :
    (b.kind = .read → src ≤ b.addr ∧ b.addr + b.data.length ≤ src + ws.sum) ∧
    (b.kind = .write → dst ≤ b.addr ∧ b.addr + b.data.length ≤ dst + ws.sum) := by
  obtain ⟨o, w, -, how, hdata, hkind⟩ := mem_plannedBeats hb
  rw [hdata, Memory.length_readBytes]
  rcases hkind with ⟨hkind, haddr⟩ | ⟨hkind, haddr⟩ <;> rw [hkind, haddr]
  · exact ⟨fun _ => by omega, nofun⟩
  · exact ⟨nofun, fun _ => by omega⟩

/-- Settles O33: the record grows by the planned beats, two for each chunk. -/
theorem beatsFollowTheSchedule : Obligations.BeatsFollowTheSchedule := by
  intro s dst src size h1 hsrc hdst hapart
  refine ⟨_, exec_copy_moves h1 hsrc hdst hapart, rfl, fun b hb => ?_, ?_, chunkCount_le _ _⟩
  · simpa only [schedule_widthsPresent_sum] using plannedBeats_inside hb
  · rw [← length_schedule, ← length_plannedBeats s.mem dst src 0]
    exact List.length_append

/-- Where the beats of a kind begin: reads at the source region, writes at the destination region. -/
def regionStart (dst src : Nat) : BeatKind → Nat
  | .read => src
  | .write => dst

/-- The planned beats of a kind go through their region in order, each byte once (R120). -/
theorem addressesOf_plannedBeats (k : BeatKind) (m : Memory) (dst src off : Nat) (ws : List Nat) :
    addressesOf k (plannedBeats m dst src off ws) = List.range' (regionStart dst src k + off) ws.sum := by
  induction ws generalizing off with
  | nil => rfl
  | cons w ws ih =>
    have hfirst : addressesOf k (plannedBeats m dst src off (w :: ws)) =
        List.range' (regionStart dst src k + off) (m.readBytes (src + off) w).length ++
          addressesOf k (plannedBeats m dst src (off + w) ws) := by
      cases k <;> rfl
    rw [hfirst, ih, Memory.length_readBytes, ← Nat.add_assoc, List.range'_append_1, List.sum_cons]

/-- Settles O34: the chunks tile the region, so the addresses of the beats of one kind run through it in order. -/
theorem eachByteIsMovedOnce : Obligations.EachByteIsMovedOnce := by
  intro s dst src size h1 hsrc hdst hapart
  refine ⟨_, _, exec_copy_moves h1 hsrc hdst hapart, rfl, ?_, ?_, fun b hb => ?_⟩
  · rw [addressesOf_plannedBeats, schedule_widthsPresent_sum]
    rfl
  · rw [addressesOf_plannedBeats, schedule_widthsPresent_sum]
    rfl
  · rw [← copyMove_beats hapart] at hb
    exact copyMove_beat_legal ⟨hsrc, hdst⟩ hb

/-! ### What a `COPY` does not see -/

/-- A copy leaves the same memory whatever the widths of its chunks (R121). -/
theorem copyMove_mem_eq {m : Memory} (hm : m.wf) {dst src size : Nat} (h : src + size ≤ dst ∨ dst + size ≤ src)
    (v v' : VLen) : (copyMove v' dst src size m).1 = (copyMove v dst src size m).1 := by
  have hunwritten (v : VLen) : (copyMove v dst src size m).1.unwritten = m.unwritten := moveChunks_unwritten ..
  refine equalMemoriesAreEqualData _ _ (copyMove_wf hm v' dst src size) (copyMove_wf hm v dst src size) ?_ fun a => ?_
  · rw [hunwritten, hunwritten]
  · rw [copyMove_read h, copyMove_read h]

/-- In a block of another `VLEN` a `COPY` that succeeds has the same effect but for the beats. -/
theorem succeeds_copy_vlen {s u : State} {dst src size a : Nat} (hm : s.mem.wf)
    (h : Succeeds s (.copy dst src size) u a) (v : VLen) :
    ∃ bs, Succeeds { s with cfg := { s.cfg with vlen := v } } (.copy dst src size)
      { u with cfg := { s.cfg with vlen := v }, beats := bs } a := by
  rcases h with ⟨h0, rfl, ha⟩ | ⟨h0, hb, ho, rfl, ha⟩
  · exact ⟨u.beats, .inl ⟨h0, rfl, ha⟩⟩
  · refine ⟨s.beats ++ (copyMove v dst src size s.mem).2, .inr ⟨h0, hb, ho, ?_, ha⟩⟩
    have hmem := copyMove_mem_eq hm (dst := dst) (src := src) (size := size) (by omega) v s.cfg.vlen
    simp only [State.setMem, State.recordBeats, hmem]

/-- Settles O35: no check looks at `VLEN`, and the copied bytes are the same data. -/
theorem copyDoesNotShowVlen : Obligations.CopyDoesNotShowVlen := by
  intro s v dst src size hm
  rcases exec_cases (.copy dst src size) s with ⟨f, hf, he⟩ | ⟨u, a, hu, he⟩
  · exact ⟨_, s.beats, he, exec_of_raises (s := { s with cfg := { s.cfg with vlen := v } }) hf⟩
  · obtain ⟨bs, hu'⟩ := succeeds_copy_vlen hm hu v
    exact ⟨_, bs, he, exec_of_succeeds hu'⟩

/-- A `COPY` that succeeds writes no ring register (R122). -/
theorem succeeds_copy_ring {s u : State} {dst src size a : Nat} (h : Succeeds s (.copy dst src size) u a) :
    u.ring = s.ring := by
  rcases h with ⟨-, rfl, -⟩ | ⟨-, -, -, rfl, -⟩ <;> rfl

/-- With any other ring registers a `COPY` that succeeds has the same effect (R122). -/
theorem succeeds_copy_setRing {s u : State} {dst src size a : Nat} (h : Succeeds s (.copy dst src size) u a)
    (valid : Bool) (cap head tail : Nat) :
    Succeeds (s.setRing valid cap head tail) (.copy dst src size) (u.setRing valid cap head tail) a := by
  rcases h with ⟨h0, rfl, rfl⟩ | ⟨h0, hb, ho, rfl, rfl⟩
  · exact .inl ⟨h0, rfl, rfl⟩
  · exact .inr ⟨h0, hb, ho, rfl, rfl⟩

/-- Settles O37: the checks see only the operands and `MEM_BYTES`, and the effect only `MEM` and the beats. -/
theorem copyIgnoresTheRing : Obligations.CopyIgnoresTheRing := by
  intro s dst src size cap head tail valid
  rcases exec_cases (.copy dst src size) s with ⟨f, hf, he⟩ | ⟨u, a, hu, he⟩
  · exact ⟨_, he, rfl, rfl, rfl, rfl, exec_of_raises (s := s.setRing valid cap head tail) hf⟩
  · obtain ⟨hv, hc, hh, ht⟩ := State.ring_eq_iff.1 (succeeds_copy_ring hu)
    exact ⟨_, he, hv, hc, hh, ht, exec_of_succeeds (succeeds_copy_setRing hu valid cap head tail)⟩

end Sys2Proof.Machine
end

section
/-! PROOFS. The host's sequences `WRITE` and `READ` (43_tiered_copy.md R123): queries, then one or two copies, then an
advance; every command answers `OK`, and the copies move the bytes between the buffer and the positions of the ring. -/

namespace Sys2Proof.Machine

/-! ### Sequences of commands that all succeed -/

/-- From `s` to `t` the block gave responses that are all `OK`. -/
def AnsweredOk (s t : State) : Prop :=
  ∃ rs : List Response, t.responses = s.responses ++ rs ∧ ∀ r ∈ rs, r.status = 0x00

theorem AnsweredOk.refl (s : State) : AnsweredOk s s := ⟨[], (List.append_nil _).symm, nofun⟩

theorem AnsweredOk.trans {s t u : State} (h : AnsweredOk s t) (h' : AnsweredOk t u) : AnsweredOk s u := by
  obtain ⟨rs, hrs, hok⟩ := h
  obtain ⟨rs', hrs', hok'⟩ := h'
  exact ⟨rs ++ rs', by rw [hrs', hrs, List.append_assoc], List.forall_mem_append.2 ⟨hok, hok'⟩⟩

/-- The commands `is` take `s` to `t`, and each of them answers `OK`. -/
structure Completes (is : List Instr) (s t : State) : Prop where
  run : execAll is s = .next t
  answers : AnsweredOk s t

theorem Completes.nil (s : State) : Completes [] s s := ⟨rfl, .refl s⟩

theorem Completes.cons {i : Instr} {is : List Instr} {s u t : State} {v : Nat} (h : Succeeds s i u v)
    (h' : Completes is (u.respond i.opcode.code v) t) : Completes (i :: is) s t := by
  obtain ⟨-, -, -, hresp, -⟩ := succeeds_frame h
  have hfirst : AnsweredOk s (u.respond i.opcode.code v) :=
    ⟨_, congrArg (· ++ _) hresp, List.forall_mem_singleton.2 rfl⟩
  refine ⟨?_, hfirst.trans h'.answers⟩
  rw [execAll, exec_of_succeeds h]
  exact h'.run

theorem Completes.singleton {i : Instr} {s u : State} {v : Nat} (h : Succeeds s i u v) :
    Completes [i] s (u.respond i.opcode.code v) := .cons h (.nil _)

theorem execAll_append {is : List Instr} {s t : State} (h : execAll is s = .next t) (js : List Instr) :
    execAll (is ++ js) s = execAll js t := by
  induction is generalizing s with
  | nil =>
    obtain rfl := Host.Outcome.next.inj h
    rfl
  | cons i is ih =>
    obtain ⟨u, he⟩ := exec_next i s
    rw [List.cons_append, execAll, he]
    rw [execAll, he] at h
    exact ih h

theorem Completes.append {is js : List Instr} {s t u : State} (h : Completes is s t) (h' : Completes js t u) :
    Completes (is ++ js) s u :=
  ⟨(execAll_append h.run js).trans h'.run, h.answers.trans h'.answers⟩

/-! ### The parts of the two sequences -/

/-- `s` with another `MEM`, and with other records of the beats and the responses. -/
def State.withPorts (s : State) (m : Memory) (bs : List Beat) (rs : List Response) : State :=
  { s with mem := m, beats := bs, responses := rs }

/-- Queries of a ring answer and change nothing else. -/
theorem completes_queries {k : Nat} {is : List Instr} (his : ∀ i ∈ is, i ∈ ringQueries k) {s : State}
    (hv : s.valid = true) : ∃ rs, Completes is s (s.withPorts s.mem s.beats rs) := by
  induction is generalizing s with
  | nil => exact ⟨s.responses, .nil s⟩
  | cons i is ih =>
    obtain ⟨hi, his⟩ := List.forall_mem_cons.1 his
    obtain ⟨v, hq⟩ := exists_queryAnswer s.cap s.head s.tail k i hi
    obtain ⟨rs, hrun⟩ := ih his (s := s.respond i.opcode.code v) hv
    exact ⟨rs, .cons (succeeds_query hq hv) hrun⟩

/-- A `COPY` between regions that share no byte, empty or not. -/
theorem completes_copy {s : State} {dst src size : Nat} (hsrc : src + size ≤ s.cfg.memBytes)
    (hdst : dst + size ≤ s.cfg.memBytes) (hapart : src + size ≤ dst ∨ dst + size ≤ src) :
    ∃ m bs rs, Completes [.copy dst src size] s (s.withPorts m bs rs) ∧
      (∀ i < size, m.read (dst + i) = s.mem.read (src + i)) ∧
      ∀ x, x < dst ∨ dst + size ≤ x → m.read x = s.mem.read x := by
  rcases Nat.eq_zero_or_pos size with rfl | h1
  · exact ⟨s.mem, _, _, .singleton (.inl ⟨rfl, rfl, rfl⟩), nofun, fun _ _ => rfl⟩
  · have hrun := Completes.singleton (succeeds_copy h1 hsrc hdst hapart)
    exact ⟨_, _, _, hrun, fun i => copyMove_read_dst hapart s.mem, fun x => copyMove_read_outside hapart s.mem⟩

/-- An advance of `HEAD` below `free`. -/
theorem completes_advHead {s : State} {n : Nat} (hv : s.valid = true) (hn : n < s.free) :
    ∃ rs, Completes [.advHead n] s ((s.setHead (s.wrap s.head n)).withPorts s.mem s.beats rs) :=
  ⟨_, .singleton ⟨hv, hn, rfl, rfl⟩⟩

/-- An advance of `TAIL` within `filled`. -/
theorem completes_advTail {s : State} {n : Nat} (hv : s.valid = true) (hn : n ≤ s.filled) :
    ∃ rs, Completes [.advTail n] s ((s.setTail (s.wrap s.tail n)).withPorts s.mem s.beats rs) :=
  ⟨_, .singleton ⟨hv, hn, rfl, rfl⟩⟩

/-- The second `COPY` of a sequence, left out where nothing is left for it (R123). -/
def secondCopy (dst src size : Nat) : List Instr := if 0 < size then [.copy dst src size] else []

/-- Two copies one after the other, the second of which touches nothing that the first wrote. -/
theorem completes_twoCopies {s : State} {dst₁ src₁ n₁ dst₂ src₂ n₂ : Nat} (hsrc₁ : src₁ + n₁ ≤ s.cfg.memBytes)
    (hdst₁ : dst₁ + n₁ ≤ s.cfg.memBytes) (hapart₁ : src₁ + n₁ ≤ dst₁ ∨ dst₁ + n₁ ≤ src₁)
    (hsrc₂ : src₂ + n₂ ≤ s.cfg.memBytes) (hdst₂ : dst₂ + n₂ ≤ s.cfg.memBytes)
    (hapart₂ : src₂ + n₂ ≤ dst₂ ∨ dst₂ + n₂ ≤ src₂) (hread : src₂ + n₂ ≤ dst₁ ∨ dst₁ + n₁ ≤ src₂)
    (hwrite : dst₂ + n₂ ≤ dst₁ ∨ dst₁ + n₁ ≤ dst₂) :
    ∃ m bs rs, Completes (.copy dst₁ src₁ n₁ :: secondCopy dst₂ src₂ n₂) s (s.withPorts m bs rs) ∧
      (∀ i < n₁, m.read (dst₁ + i) = s.mem.read (src₁ + i)) ∧
      ∀ i < n₂, m.read (dst₂ + i) = s.mem.read (src₂ + i) := by
  obtain ⟨m, bs, rs, hrun, hbytes, hframe⟩ := completes_copy hsrc₁ hdst₁ hapart₁
  by_cases h0 : 0 < n₂
  · obtain ⟨m', bs', rs', hrun', hbytes', hframe'⟩ := completes_copy (s := s.withPorts m bs rs) hsrc₂ hdst₂ hapart₂
    rw [secondCopy, if_pos h0]
    refine ⟨m', bs', rs', hrun.append hrun', fun i hi => ?_, fun i hi => ?_⟩
    · exact (hframe' _ (by omega)).trans (hbytes i hi)
    · exact (hbytes' i hi).trans (hframe _ (by omega))
  · rw [secondCopy, if_neg h0]
    exact ⟨m, bs, rs, hrun, hbytes, fun i hi => absurd (Nat.zero_lt_of_lt hi) h0⟩

/-! ### A run of ring positions, in two pieces -/

/-- What holds of the run up to the end of the storage and of the run from position 0 on holds of each of the `n`
positions from `p` on (10_state.md R21). -/
theorem State.forall_wrap {s : State} {p n : Nat} (hp : p < s.cap) (hn : n ≤ s.cap) {P : Nat → Nat → Prop}
    (h₁ : ∀ i < min n (s.cap - p), P (p + i) i)
    (h₂ : ∀ i < n - min n (s.cap - p), P (0 + i) (min n (s.cap - p) + i)) : ∀ i < n, P (s.wrap p i) i := by
  intro i hi
  have hwrap : s.wrap p i = _ := ringWrap_of_lt hp (hi.le.trans hn)
  rw [hwrap]
  split
  · exact h₁ i (by omega)
  · have h := h₂ (i - min n (s.cap - p)) (by omega)
    have hpos : 0 + (i - min n (s.cap - p)) = p + i - s.cap := by omega
    have hi : min n (s.cap - p) + (i - min n (s.cap - p)) = i := by omega
    rwa [hpos, hi] at h

/-- The storage of the ring lies inside `MEM` (00_scope.md R5, 10_state.md R12). -/
theorem State.storage_inside {s : State} (hc : s.cfg.valid) (hr : s.ringOk) (hv : s.valid = true) :
    s.cfg.storageBase + s.cap ≤ s.cfg.memBytes := by
  obtain ⟨-, -, hstorage, -⟩ := hc
  obtain ⟨-, hcap, -⟩ := s.ringOk_valid hr hv
  omega

section twoCopies
variable {s : State} {p n buf : Nat} (hs : s.cfg.storageBase + s.cap ≤ s.cfg.memBytes) (hp : p < s.cap) (hn : n ≤ s.cap)
  (hbuf : s.bufferOk buf n)
include hs hp hn hbuf

/-- The copies of `WRITE`: a buffer goes to the `n` positions from `p` on. -/
theorem completes_copiesIntoRing :
    ∃ m bs rs, Completes (.copy (positionAddress s.cfg p) buf (min n (s.cap - p)) ::
        secondCopy (positionAddress s.cfg 0) (buf + min n (s.cap - p)) (n - min n (s.cap - p))) s
        (s.withPorts m bs rs) ∧
      ∀ i < n, m.read (positionAddress s.cfg (s.wrap p i)) = s.mem.read (buf + i) := by
  obtain ⟨hmem, hout⟩ := hbuf
  simp only [positionAddress]
  obtain ⟨m, bs, rs, hrun, h₁, h₂⟩ := completes_twoCopies (s := s) (dst₁ := s.cfg.storageBase + p) (src₁ := buf)
    (n₁ := min n (s.cap - p)) (dst₂ := s.cfg.storageBase + 0) (src₂ := buf + min n (s.cap - p))
    (n₂ := n - min n (s.cap - p)) (by omega) (by omega) (by omega) (by omega) (by omega) (by omega) (by omega) (by omega)
  refine ⟨m, bs, rs, hrun, State.forall_wrap hp hn (P := fun q i =>
    m.read (s.cfg.storageBase + q) = s.mem.read (buf + i)) (fun i hi => ?_) fun i hi => ?_⟩
  · rw [← Nat.add_assoc, h₁ i hi]
  · rw [← Nat.add_assoc, ← Nat.add_assoc, h₂ i hi]

/-- The copies of `READ`: the `n` positions from `p` on go to a buffer. -/
theorem completes_copiesOutOfRing :
    ∃ m bs rs, Completes (.copy buf (positionAddress s.cfg p) (min n (s.cap - p)) ::
        secondCopy (buf + min n (s.cap - p)) (positionAddress s.cfg 0) (n - min n (s.cap - p))) s
        (s.withPorts m bs rs) ∧
      ∀ i < n, m.read (buf + i) = s.mem.read (positionAddress s.cfg (s.wrap p i)) := by
  obtain ⟨hmem, hout⟩ := hbuf
  simp only [positionAddress]
  obtain ⟨m, bs, rs, hrun, h₁, h₂⟩ := completes_twoCopies (s := s) (src₁ := s.cfg.storageBase + p) (dst₁ := buf)
    (n₁ := min n (s.cap - p)) (src₂ := s.cfg.storageBase + 0) (dst₂ := buf + min n (s.cap - p))
    (n₂ := n - min n (s.cap - p)) (by omega) (by omega) (by omega) (by omega) (by omega) (by omega) (by omega) (by omega)
  refine ⟨m, bs, rs, hrun, State.forall_wrap hp hn (P := fun q i =>
    m.read (buf + i) = s.mem.read (s.cfg.storageBase + q)) (fun i hi => ?_) fun i hi => ?_⟩
  · rw [← Nat.add_assoc, h₁ i hi]
  · rw [← Nat.add_assoc, ← Nat.add_assoc, h₂ i hi]

end twoCopies

/-! ### The two sequences -/

section sequences
variable {s : State} {buf n : Nat} (hc : s.cfg.valid) (hr : s.ringOk) (hv : s.valid = true) (hbuf : s.bufferOk buf n)
include hc hr hv hbuf

/-- `WRITE buf, n` with room for `n` bytes puts them at the positions ahead of `HEAD` and moves `HEAD` past them. -/
theorem completes_writeSequence (hn : n < s.free) :
    ∃ m bs rs, Completes (s.writeSequence buf n) s ((s.setHead (s.wrap s.head n)).withPorts m bs rs) ∧
      ∀ i < n, m.read (positionAddress s.cfg (s.wrap s.head i)) = s.mem.read (buf + i) := by
  obtain ⟨-, -, hhead, -⟩ := s.ringOk_valid hr hv
  have hncap : n ≤ s.cap := hn.le.trans (Nat.sub_le _ _)
  obtain ⟨rs₁, hqueries⟩ := completes_queries (k := 0) (is := [.free, .nextHead 0, .headToEnd]) (by decide) hv
  obtain ⟨m, bs, rs₂, hcopies, hbytes⟩ := completes_copiesIntoRing (s := s.withPorts s.mem s.beats rs₁)
    (s.storage_inside hc hr hv) hhead hncap hbuf
  obtain ⟨rs₃, hadvance⟩ := completes_advHead (s := s.withPorts m bs rs₂) hv hn
  refine ⟨m, bs, rs₃, ?_, hbytes⟩
  rw [State.writeSequence, s.wrap_head_zero hr hv]
  exact (hqueries.append hcopies).append hadvance

/-- `READ buf, n` of `n` bytes the ring holds takes them from the positions at `TAIL` and moves `TAIL` past them. -/
theorem completes_readSequence (hn : n ≤ s.filled) :
    ∃ m bs rs, Completes (s.readSequence buf n) s ((s.setTail (s.wrap s.tail n)).withPorts m bs rs) ∧
      ∀ i < n, m.read (buf + i) = s.mem.read (positionAddress s.cfg (s.wrap s.tail i)) := by
  obtain ⟨-, -, -, htail⟩ := s.ringOk_valid hr hv
  have hncap : n ≤ s.cap := hn.trans (s.filled_lt hr hv).le
  obtain ⟨rs₁, hqueries⟩ := completes_queries (k := 0) (is := [.filled, .nextTail 0, .tailToEnd]) (by decide) hv
  obtain ⟨m, bs, rs₂, hcopies, hbytes⟩ := completes_copiesOutOfRing (s := s.withPorts s.mem s.beats rs₁)
    (s.storage_inside hc hr hv) htail hncap hbuf
  obtain ⟨rs₃, hadvance⟩ := completes_advTail (s := s.withPorts m bs rs₂) hv hn
  refine ⟨m, bs, rs₃, ?_, hbytes⟩
  rw [State.readSequence, s.wrap_tail_zero hr hv]
  exact (hqueries.append hcopies).append hadvance

end sequences

/-- Settles O60: in an empty ring the positions that `WRITE` fills ahead of `HEAD` are those that `READ` takes at
`TAIL`. -/
theorem writeThenReadReturnsTheBytes : Obligations.WriteThenReadReturnsTheBytes := by
  intro s buf buf2 n hs hv hempty hfree hbuf hbuf2
  have hn : n < s.free := hfree
  obtain ⟨hc, hr, -⟩ := hs
  have hfilled : s.filled = 0 := (s.head_eq_tail_iff hr hv).1 hempty
  have hfilledW : (s.setHead (s.wrap s.head n)).filled = n := by
    rw [State.filled_setHead_wrap hr hv hn, hfilled, Nat.zero_add]
  have hrW : (s.setHead (s.wrap s.head n)).ringOk := succeeds_ringOk (i := .advHead n) hr ⟨hv, hn, rfl, rfl⟩
  obtain ⟨m, bs, rs, hwrite, hin⟩ := completes_writeSequence hc hr hv hbuf hn
  obtain ⟨m', bs', rs', hread, hout⟩ := completes_readSequence
    (s := (s.setHead (s.wrap s.head n)).withPorts m bs rs) hc hrW hv hbuf2 hfilledW.ge
  refine ⟨_, _, hwrite.run, hread.run, fun i hi => ?_, hfilledW, ?_, hwrite.answers.trans hread.answers⟩
  · rw [← hin i hi, hempty]
    exact hout i hi
  · have hdrained := State.filled_setTail_wrap hrW hv hfilledW.ge
    rw [hfilledW, Nat.sub_self] at hdrained
    exact hdrained

end Sys2Proof.Machine
end

section
/-! PROOFS. What the response of a command tells of its step, and what a fault leaves (60_exceptions.md R133 to R135,
R140). -/

namespace Sys2Proof.Machine

/-! ### A step, read back from its response -/

/-- The command word faults with `f`: it does not decode, or its command raises `f` (R130). -/
def WordRaises (s : State) (w : Nat) (f : FaultCode) : Prop :=
  (∃ e, decode s.cfg.xlen w = .error e ∧ f = .eIllegal) ∨ ∃ i, decode s.cfg.xlen w = .ok i ∧ Raises s i f

/-- The command word decodes to a command that succeeds with the effect `u` and the answer `v`. -/
def WordSucceeds (s : State) (w : Nat) (u : State) (v : Nat) : Prop :=
  ∃ i, decode s.cfg.xlen w = .ok i ∧ Succeeds s i u v

/-- The response that a step gives is one: two ways of naming it agree. -/
theorem eq_of_responses_append {s t : State} {r r' : Response} (h : t.responses = s.responses ++ [r])
    (h' : t.responses = s.responses ++ [r']) : r = r' :=
  List.singleton_inj.1 (List.append_cancel_left (h.symm.trans h'))

/-- The step that took a command word and gave the response `r`: with a fault code it is `State.raise`, with `OK` it is
the command's effect (R133, R134). -/
theorem step_response_cases {s t : State} {w : Nat} {rest : List Input} {r : Response} (hc : s.cfg.valid)
    (hi : s.inputs = .command w :: rest) (ht : step s = .next t) (hr : t.responses = s.responses ++ [r]) :
    (∃ f, WordRaises s w f ∧
      r = { op := BitVec.ofNat 8 (w % 256), status := faultCode f, value := w / 2 ^ 8 % 2 ^ s.cfg.xlen.bits } ∧
      t = (s.setInputs rest).raise r.op f r.value) ∨
    (∃ u v, WordSucceeds (s.setInputs rest) w u v ∧
      r = { op := BitVec.ofNat 8 (w % 256), status := statusOk, value := v } ∧ t = u.respond r.op r.value) := by
  rcases step_command_cases hc hi with ⟨f, h, hf⟩ | ⟨i, u, v, hd, hu, h⟩ <;>
    obtain rfl := Host.Outcome.next.inj (h.symm.trans ht)
  · obtain rfl := eq_of_responses_append hr (State.responses_raise ..)
    exact .inl ⟨f, hf, rfl, rfl⟩
  · obtain ⟨-, -, -, hresp, -⟩ := succeeds_frame hu
    obtain rfl := eq_of_responses_append hr (by rw [State.responses_respond, hresp, State.responses_setInputs])
    exact .inr ⟨u, v, ⟨i, hd, hu⟩, rfl, rfl⟩

/-! ### What a fault leaves -/

theorem one_le_faultCode (f : FaultCode) : 1 ≤ (faultCode f).toNat := by
  cases f <;> decide

/-- Settles O41: a fault is `State.raise`, which names the word's own `op` and `a`; any other response is `OK`. -/
theorem faultsAreDeliveredInTheResponse : Obligations.FaultsAreDeliveredInTheResponse := by
  intro s w rest hc hi
  obtain ⟨t, r, ht, hr, -⟩ := everyCommandIsAnsweredOnce s w rest hc hi
  refine ⟨t, r, ht, hr, fun hst => ?_⟩
  rcases step_response_cases hc hi ht hr with ⟨f, -, rfl, rfl⟩ | ⟨u, v, -, rfl, -⟩
  · exact ⟨rfl, one_le_faultCode f, faultCode_le f, rfl⟩
  · exact absurd rfl hst

/-- Settles O43: the step of a fault is `State.raise`. -/
theorem faultsHaveNoSideEffects : Obligations.FaultsHaveNoSideEffects := by
  intro s t w rest r hc hi ht hr hst
  rcases step_response_cases hc hi ht hr with ⟨f, -, -, rfl⟩ | ⟨u, v, -, rfl, -⟩
  · rfl
  · exact absurd rfl hst

/-- A code once in `ERR` stays (R134). -/
theorem errAfter_of_ne_zero {err : Byte} (h : err ≠ 0x00) (k : Byte) : errAfter err k = err := if_neg h

/-- No command clears `ERR`. -/
theorem takeCommand_err_ne_zero {s t : State} {w : Nat} (h : s.err ≠ 0x00) (ht : takeCommand w s = .next t) :
    t.err ≠ 0x00 := by
  rcases takeCommand_cases w s with ⟨e, -, he⟩ | ⟨i, f, -, -, he⟩ | ⟨i, u, v, -, hu, he⟩ <;>
    obtain rfl := Host.Outcome.next.inj (he.symm.trans ht)
  · rwa [State.err_raise, errAfter_of_ne_zero h]
  · rwa [State.err_raise, errAfter_of_ne_zero h]
  · obtain ⟨-, herr, -⟩ := succeeds_frame hu
    rwa [State.err_respond, herr]

/-- Settles O42: a fault updates `ERR` by `errAfter`, a command that succeeds keeps it, and of the other events only the
two resets write it. -/
theorem errHoldsTheFirstFault : Obligations.ErrHoldsTheFirstFault := by
  refine ⟨fun s t w rest r hc hi ht hr => ?command, fun s t ht hs h0 => ?cleared⟩
  case command =>
    rcases step_response_cases hc hi ht hr with ⟨f, -, rfl, rfl⟩ | ⟨u, v, ⟨i, -, hu⟩, rfl, rfl⟩
    · exact ⟨fun hst => absurd hst (faultCode_ne_zero f), fun _ he => if_pos he, fun _ he => errAfter_of_ne_zero he _⟩
    · obtain ⟨-, herr, -⟩ := succeeds_frame hu
      exact ⟨fun _ => herr, fun hst => absurd rfl hst, fun hst => absurd rfl hst⟩
  case cleared =>
    obtain ⟨-, hcases⟩ := step_cases ht
    rcases hcases with ⟨-, rfl⟩ | ⟨w, rest, -, htake⟩ | ⟨rest, hi, -⟩ | ⟨w, landed, issued, rest, hi, -⟩ |
      ⟨a, v, rest, -, -, rfl⟩ | ⟨a, rest, -, -, rfl⟩ | ⟨w, seen, ends, reads, rest, dst, src, size, -, -, -, rfl⟩
    · exact absurd h0 hs
    · exact absurd h0 (takeCommand_err_ne_zero (s := s.setInputs rest) hs htake)
    · exact ⟨rest, .inl hi⟩
    · exact ⟨rest, .inr ⟨w, landed, issued, hi⟩⟩
    · exact absurd h0 hs
    · exact absurd h0 hs
    · exact absurd h0 hs

/-- Settles O47: every command completes in every state, and a failed `CONSTRUCT` keeps all that the next one's checks
look at. -/
theorem failedConstructIsNotFatal : Obligations.FailedConstructIsNotFatal := by
  refine ⟨fun s op k a i => exec_next i (s.faulted op k a), fun s bad good hv hbad h1 hgood => ?_⟩
  obtain ⟨f, hf⟩ : ∃ f, Raises s (.construct bad) f := by
    by_cases h0 : bad = 0
    · exact ⟨.eConfig, .inr (.inl ⟨hv, h0, rfl⟩)⟩
    · exact ⟨.eResource, .inr (.inr ⟨hv, h0, hbad.resolve_left h0, rfl⟩)⟩
  exact ⟨_, _, exec_of_raises hf, hv, exec_of_succeeds (succeeds_construct hv h1 hgood), rfl, rfl, rfl, rfl⟩

end Sys2Proof.Machine
end

section
/-! PROOFS. Which fault a command raises (60_exceptions.md R132): the first cause in the order of the table. A word
that does not decode meets a decode cause; for one that decodes the table shrinks to the causes of its opcode. -/

namespace Sys2Proof

theorem Opcode.code_inj {o o' : Opcode} : o.code = o'.code ↔ o = o' :=
  ⟨fun h => Option.some.inj ((Opcode.ofCode_code o).symm.trans (h ▸ Opcode.ofCode_code o')), congrArg _⟩

end Sys2Proof

namespace Sys2Proof.Machine

theorem firstCause_of_forall_not {cs : List (Prop × FaultCode)} (h : ∀ c ∈ cs, ¬ c.1) : firstCause cs statusOk := by
  induction cs with
  | nil => rfl
  | cons c cs ih => exact .inr ⟨h c List.mem_cons_self, ih fun d hd => h d (List.mem_cons_of_mem c hd)⟩

/-- A record that does not decode meets one of the first three causes. -/
theorem firstCause_of_decodeCommand_error {k : Command} {e : DecodeError} (s : State)
    (h : decodeCommand k = .error e) : firstCause (faultCauses s k) (faultCode .eIllegal) := by
  by_cases hlisted : ∀ o, Opcode.code o ≠ k.op
  · exact .inl ⟨hlisted, rfl⟩
  · have hunused : k.unusedNonzero := by
      by_contra hk
      obtain ⟨i, hok⟩ := exists_decodeCommand_ok (mem_opcodeValues.2 (by simpa using hlisted)) hk
      exact absurd (h.symm.trans hok) nofun
    rw [Command.unusedNonzero_iff, Format.mem_opcodeValues, Format.mem_opcodeValues] at hunused
    refine .inr ⟨hlisted, ?_⟩
    by_cases hZ : (∃ o, Opcode.code o = k.op ∧ o.format = .Z) ∧ (k.a ≠ 0 ∨ k.b ≠ 0 ∨ k.c ≠ 0)
    · exact .inl ⟨hZ, rfl⟩
    · exact .inr ⟨hZ, .inl ⟨hunused.resolve_left hZ, rfl⟩⟩

/-- The causes that are left for a command that decodes, in their order: the state and operand causes of its opcode. -/
def commandCauses (s : State) : Instr → List (Prop × FaultCode)
  | .construct n =>
    [(s.valid = true, .eAlreadyConstructed), (n = 0, .eConfig), (s.cfg.storageBytes < n, .eResource)]
  | .status => []
  | .advHead n => [(s.valid = false, .eNotConstructed), (s.free ≤ n, .eOverrun)]
  | .advTail n => [(s.valid = false, .eNotConstructed), (s.filled < n, .eUnderrun)]
  | .copy dst src size =>
    [(1 ≤ size ∧ (s.cfg.memBytes < src + size ∨ s.cfg.memBytes < dst + size), .eBounds),
     (1 ≤ size ∧ dst < src + size ∧ src < dst + size, .eAlias)]
  | _ => [(s.valid = false, .eNotConstructed)]

/-- The table's other causes do not hold of the command's own record: it decodes, and it has one opcode. -/
theorem firstCause_faultCauses_command (s : State) (i : Instr) (st : Byte) :
    firstCause (faultCauses s i.command) st ↔ firstCause (commandCauses s i) st := by
  have hown : ∀ (o : Opcode) (P : Opcode → Prop), (∃ o' : Opcode, o'.code = o.code ∧ P o') ↔ P o := by
    simp [Opcode.code_inj]
  have hlisted : ∀ o : Opcode, ¬ ∀ o' : Opcode, o'.code ≠ o.code := fun o h => h o rfl
  cases i <;> simp only [faultCauses, Instr.command, Instr.opcode, hown, hlisted] <;>
    simp [firstCause, commandCauses, Opcode.code, Opcode.format, opcodeNeedsRing]

theorem firstCause_of_raises {s : State} {i : Instr} {f : FaultCode} (h : Raises s i f) :
    firstCause (commandCauses s i) (faultCode f) := by
  cases i with
  | construct n =>
    rcases h with ⟨hv, rfl⟩ | ⟨hv, h0, rfl⟩ | ⟨hv, h0, hn, rfl⟩
    · exact .inl ⟨hv, rfl⟩
    · exact .inr ⟨by simp [hv], .inl ⟨h0, rfl⟩⟩
    · exact .inr ⟨by simp [hv], .inr ⟨h0, .inl ⟨hn, rfl⟩⟩⟩
  | status => exact h.elim
  | advHead n | advTail n =>
    rcases h with ⟨hv, rfl⟩ | ⟨hv, hn, rfl⟩
    · exact .inl ⟨hv, rfl⟩
    · exact .inr ⟨by simp [hv], .inl ⟨hn, rfl⟩⟩
  | copy dst src size =>
    rcases h with ⟨h0, hb, rfl⟩ | ⟨h0, hb, ho, rfl⟩
    · exact .inl ⟨by omega, rfl⟩
    · exact .inr ⟨by omega, .inl ⟨by omega, rfl⟩⟩
  | destroy | isEmpty | filled | free | capacity | headToEnd | tailToEnd | nextHead k | nextTail k =>
    obtain ⟨hv, rfl⟩ := h
    exact .inl ⟨hv, rfl⟩

theorem not_commandCauses_of_succeeds {s u : State} {i : Instr} {v : Nat} (h : Succeeds s i u v) :
    ∀ c ∈ commandCauses s i, ¬ c.1 := by
  cases i with
  | construct n =>
    obtain ⟨hv, h0, hn, -⟩ := h
    simp [commandCauses, hv, h0, hn]
  | status => simp [commandCauses]
  | advHead n | advTail n =>
    obtain ⟨hv, hn, -⟩ := h
    simp [commandCauses, hv, hn]
  | copy dst src size =>
    rcases h with ⟨rfl, -⟩ | ⟨h0, hb, ho, -⟩
    · simp [commandCauses]
    · exact List.forall_mem_cons.2 ⟨fun hbounds => by omega, List.forall_mem_singleton.2 fun halias => by omega⟩
  | destroy | isEmpty | filled | free | capacity | headToEnd | tailToEnd | nextHead k | nextTail k =>
    obtain ⟨hv, -⟩ := h
    simp [commandCauses, hv]

/-- Settles O44: a word that does not decode meets a decode cause; one that decodes is the record of its command. -/
theorem theFirstCauseIsRaised : Obligations.TheFirstCauseIsRaised := by
  intro s t w rest r hc hi ht hr
  rcases step_response_cases hc hi ht hr with ⟨f, ⟨e, hd, rfl⟩ | ⟨i, hd, hf⟩, rfl, -⟩ | ⟨u, v, ⟨i, hd, hu⟩, rfl, -⟩
  · exact firstCause_of_decodeCommand_error s hd
  · rw [← command_of_decodeCommand hd, firstCause_faultCauses_command]
    exact firstCause_of_raises hf
  · change firstCause (faultCauses (s.setInputs rest) (Command.ofWord (s.setInputs rest).cfg.xlen w)) _
    rw [← command_of_decodeCommand hd, firstCause_faultCauses_command]
    exact firstCause_of_forall_not (not_commandCauses_of_succeeds hu)

end Sys2Proof.Machine
end

section
/-! PROOFS. The faults of each command (60_exceptions.md R131): which an opcode allows, and when the advances and `COPY`
raise one. -/

namespace Sys2Proof.Machine

/-! ### By opcode -/

/-- The faults that the commands of an opcode can raise once they decode (R130). -/
def possibleFaults : Opcode → List FaultCode
  | .construct => [.eAlreadyConstructed, .eConfig, .eResource]
  | .status => []
  | .advHead => [.eNotConstructed, .eOverrun]
  | .advTail => [.eNotConstructed, .eUnderrun]
  | .copy => [.eBounds, .eAlias]
  | _ => [.eNotConstructed]

theorem mem_possibleFaults_of_raises {s : State} {i : Instr} {f : FaultCode} (h : Raises s i f) :
    f ∈ possibleFaults i.opcode := by
  cases i with
  | construct n => rcases h with ⟨-, rfl⟩ | ⟨-, -, rfl⟩ | ⟨-, -, -, rfl⟩ <;> simp [Instr.opcode, possibleFaults]
  | status => exact h.elim
  | advHead n | advTail n => rcases h with ⟨-, rfl⟩ | ⟨-, -, rfl⟩ <;> simp [Instr.opcode, possibleFaults]
  | copy dst src size => rcases h with ⟨-, -, rfl⟩ | ⟨-, -, -, rfl⟩ <;> simp [Instr.opcode, possibleFaults]
  | destroy | isEmpty | filled | free | capacity | headToEnd | tailToEnd | nextHead k | nextTail k =>
    exact List.mem_singleton.2 h.2

/-- The opcodes 0x10 to 0x17 are the queries (30_encoding.md R55). -/
theorem possibleFaults_of_query {o : Opcode} (h : 0x10 ≤ o.code.toNat) (h' : o.code.toNat ≤ 0x17) :
    possibleFaults o = [.eNotConstructed] := by
  cases o with
  | isEmpty | filled | free | capacity | headToEnd | tailToEnd | nextHead | nextTail => rfl
  | construct | destroy | status => exact absurd h (by decide)
  | advHead | advTail | copy => exact absurd h' (by decide)

/-- `E_NOT_CONSTRUCTED` is raised only where there is no ring (R130). -/
theorem valid_eq_false_of_raises_eNotConstructed {s : State} {i : Instr} (h : Raises s i .eNotConstructed) :
    s.valid = false := by
  cases i with
  | construct n => rcases h with ⟨-, hf⟩ | ⟨-, -, hf⟩ | ⟨-, -, -, hf⟩ <;> exact nomatch hf
  | status => exact h.elim
  | advHead n | advTail n =>
    rcases h with ⟨hv, -⟩ | ⟨-, -, hf⟩
    · exact hv
    · exact nomatch hf
  | copy dst src size => rcases h with ⟨-, -, hf⟩ | ⟨-, -, -, hf⟩ <;> exact nomatch hf
  | destroy | isEmpty | filled | free | capacity | headToEnd | tailToEnd | nextHead k | nextTail k => exact h.1

/-- The status of a response: `OK`, `E_ILLEGAL` for a word that does not decode, or a fault of a command of that `op`. -/
theorem response_status_cases {s t : State} {w : Nat} {rest : List Input} {r : Response} (hc : s.cfg.valid)
    (hi : s.inputs = .command w :: rest) (ht : step s = .next t) (hr : t.responses = s.responses ++ [r]) :
    r.status = 0x00 ∨ ((∃ e, decode s.cfg.xlen w = .error e) ∧ r.status = 0x01) ∨
      ∃ i f, i.opcode.code = r.op ∧ Raises s i f ∧ r.status = faultCode f := by
  rcases step_response_cases hc hi ht hr with ⟨f, ⟨e, hd, rfl⟩ | ⟨i, hd, hf⟩, rfl, -⟩ | ⟨u, v, -, rfl, -⟩
  · exact .inr (.inl ⟨⟨e, hd⟩, rfl⟩)
  · exact .inr (.inr ⟨i, f, op_of_decode hd, hf, rfl⟩)
  · exact .inl rfl

/-! ### By condition -/

/-- The response of a command is a fault exactly where the command raises one. -/
theorem status_ne_zero_iff {s t : State} {i : Instr} {r : Response} (ht : exec i s = .next t)
    (hr : t.responses = s.responses ++ [r]) : r.status ≠ 0x00 ↔ ∃ f, Raises s i f := by
  rcases exec_cases i s with ⟨f, hf, h⟩ | ⟨u, v, hu, h⟩ <;> obtain rfl := Host.Outcome.next.inj (h.symm.trans ht)
  · obtain rfl := eq_of_responses_append hr (State.responses_raise ..)
    exact ⟨fun _ => ⟨f, hf⟩, fun _ => faultCode_ne_zero f⟩
  · obtain ⟨-, -, -, hresp, -⟩ := succeeds_frame hu
    obtain rfl := eq_of_responses_append hr (by rw [State.responses_respond, hresp])
    exact ⟨fun hst => absurd rfl hst, fun ⟨_, hf⟩ => absurd hf (not_raises_of_succeeds hu)⟩

theorem exists_raises_advHead {s : State} {n : Nat} (hv : s.valid = true) :
    (∃ f, Raises s (.advHead n) f) ↔ s.free ≤ n := by
  simp [Raises, hv]

theorem exists_raises_advTail {s : State} {n : Nat} (hv : s.valid = true) :
    (∃ f, Raises s (.advTail n) f) ↔ s.filled < n := by
  simp [Raises, hv]

theorem exists_raises_copy {s : State} {dst src size : Nat} :
    (∃ f, Raises s (.copy dst src size) f) ↔ 1 ≤ size ∧
      (s.cfg.memBytes < src + size ∨ s.cfg.memBytes < dst + size ∨ (dst < src + size ∧ src < dst + size)) := by
  constructor
  · rintro ⟨f, ⟨h0, hb, -⟩ | ⟨h0, -, ho, -⟩⟩ <;> omega
  · rintro ⟨h1, h⟩
    by_cases hb : src + size ≤ s.cfg.memBytes ∧ dst + size ≤ s.cfg.memBytes
    · exact ⟨.eAlias, .inr ⟨by omega, hb, by omega, rfl⟩⟩
    · exact ⟨.eBounds, .inl ⟨by omega, hb, rfl⟩⟩

/-! ### The statement -/

/-- Settles O45: the first part reads the opcode's `possibleFaults`, the second the conditions of `Raises`. -/
theorem faultsOfEachCommand : Obligations.FaultsOfEachCommand := by
  refine ⟨fun s t w rest r hc hi ht hr => ?_, fun s t i r ht hr hv => ?_⟩
  · rcases response_status_cases hc hi ht hr with hst | ⟨⟨e, hd⟩, hst⟩ | ⟨i, f, hop, hf, hst⟩
    · simp [hst]
    · simp [hst, hd]
    · have hmem (o : Opcode) (h : r.op = o.code) : f ∈ possibleFaults o :=
        Opcode.code_inj.1 (hop.trans h) ▸ mem_possibleFaults_of_raises hf
      have hquery (h : 0x10 ≤ r.op.toNat) (h' : r.op.toNat ≤ 0x17) : f = .eNotConstructed := by
        rw [← hop] at h h'
        exact List.mem_singleton.1 (possibleFaults_of_query h h' ▸ mem_possibleFaults_of_raises hf)
      rw [hst]
      refine ⟨fun h => ?status, fun h => ?copy, fun h => ?construct, fun h h' => ?query, fun h h' hv _ => ?ringQuery⟩
      case status => exact absurd (hmem .status h) List.not_mem_nil
      case copy =>
        exact (by decide : ∀ f ∈ possibleFaults .copy, faultCode f ≠ 0x04 ∧ faultCode f ≠ 0x05) f (hmem .copy h)
      case construct =>
        exact (by decide : ∀ f ∈ possibleFaults .construct, faultCode f ≠ 0x04) f (hmem .construct h)
      case query => exact .inr (.inr (congrArg faultCode (hquery h h')))
      case ringQuery =>
        rw [hquery h h'] at hf
        exact absurd (hv.symm.trans (valid_eq_false_of_raises_eNotConstructed hf)) nofun
  · refine ⟨fun n hi => ?_, fun n hi => ?_, fun dst src size hi => ?_⟩ <;> rw [status_ne_zero_iff ht hr, hi]
    · exact exists_raises_advHead hv
    · exact exists_raises_advTail hv
    · exact exists_raises_copy

end Sys2Proof.Machine
end

section
/-! PROOFS. Reset, and the hazards between the producer, the consumer and the host (70_reset_and_hazards.md R151, R152,
R155, R157). -/

namespace Sys2Proof.Machine

/-! ### After reset (R152) -/

/-- Without a ring every ring command raises `E_NOT_CONSTRUCTED` (60_exceptions.md R130). -/
theorem raises_eNotConstructed {s : State} {i : Instr} (hi : opcodeNeedsRing i.opcode = true) (hv : s.valid = false) :
    Raises s i .eNotConstructed := by
  cases i with
  | construct | status | copy => exact nomatch hi
  | advHead | advTail => exact .inl ⟨hv, rfl⟩
  | destroy | isEmpty | filled | free | capacity | headToEnd | tailToEnd | nextHead | nextTail => exact ⟨hv, rfl⟩

/-- Settles O58: a launch state has no ring and no `ERR`, which are what the ring commands, `CONSTRUCT` and `STATUS`
look at, and `COPY` looks at neither. -/
theorem bootBeginsWithConstruct : Obligations.BootBeginsWithConstruct := by
  intro c m i n dst src
  refine ⟨fun hi => ?ringCommand, fun h1 hn => ?construct, ?status, fun h1 hsrc hdst hapart => ?copy⟩
  case ringCommand => exact ⟨_, exec_of_raises (raises_eNotConstructed hi rfl), rfl, rfl⟩
  case construct =>
    have hring : (State.launch c m).ringOk := ⟨nofun, fun _ => ⟨rfl, rfl, rfl⟩⟩
    have he := exec_of_succeeds (succeeds_construct (s := State.launch c m) rfl h1 hn)
    exact ⟨_, he, rfl, rfl, rfl, rfl, exec_ringOk hring he⟩
  case status =>
    have hzero : 0 = statusWord false 0x00 := by decide
    exact exec_of_succeeds (i := .status) ⟨rfl, hzero⟩
  case copy =>
    exact ⟨_, exec_copy_moves (s := State.launch c m) h1 hsrc hdst hapart, fun k => copyMove_read_dst hapart m⟩

/-! ### Stale answers (R157) -/

/-- No `ADV_TAIL`, successful or not, makes `free` smaller. -/
theorem exec_advTail_free_le {s : State} (hr : s.ringOk) (hv : s.valid = true) (m : Nat) :
    ∃ t, exec (.advTail m) s = .next t ∧ s.free ≤ t.free ∧ t.valid = true := by
  rcases Nat.lt_or_ge s.filled m with hm | hm
  · exact ⟨_, exec_advTail_underrun hv hm, le_rfl, hv⟩
  · obtain ⟨t, he, htr, htv, hc, hfilled⟩ := exec_advTail_filled hr hv hm
    have hsum := s.filled_add_free hr hv
    have htsum := t.filled_add_free htr htv
    exact ⟨t, he, by omega, htv⟩

/-- No `ADV_HEAD`, successful or not, makes `filled` smaller. -/
theorem exec_advHead_filled_le {s : State} (hr : s.ringOk) (hv : s.valid = true) (m : Nat) :
    ∃ t, exec (.advHead m) s = .next t ∧ s.filled ≤ t.filled ∧ t.valid = true := by
  rcases Nat.lt_or_ge m s.free with hm | hm
  · obtain ⟨t, he, -, htv, -, hfilled⟩ := exec_advHead_filled hr hv hm
    exact ⟨t, he, by omega, htv⟩
  · exact ⟨_, exec_advHead_overrun hv hm, le_rfl, hv⟩

/-- Settles O27: each bound is one that the other side's advance never makes smaller. -/
theorem snapshotsStayGood : Obligations.SnapshotsStayGood := by
  intro s n m hr hv
  refine ⟨fun hn => ?_, fun hn => ?_⟩
  · obtain ⟨t, he, hle, htv⟩ := exec_advTail_free_le hr hv m
    exact ⟨t, he, hn.trans_le hle, htv⟩
  · obtain ⟨t, he, hle, htv⟩ := exec_advHead_filled_le hr hv m
    exact ⟨t, he, hn.trans hle, htv⟩

/-! ### Reset in mid-command (R151) -/

/-- The checks that a `COPY` of something passes (43_tiered_copy.md R113, R114), with the regions apart in one of their
two orders. -/
theorem copyMoves_iff_apart {c : Config} {dst src size : Nat} : copyMoves c dst src size = true ↔
    1 ≤ size ∧ src + size ≤ c.memBytes ∧ dst + size ≤ c.memBytes ∧ (src + size ≤ dst ∨ dst + size ≤ src) := by
  rw [copyMoves_iff]
  omega

section abandoned
variable {s : State} {w : Nat} (landed : List Nat) (issued : Nat)

theorem abandonedMem_of_moves {dst src size : Nat} (hd : decode s.cfg.xlen w = .ok (.copy dst src size))
    (hm : copyMoves s.cfg dst src size = true) :
    abandonedMem w landed s = copyLanded dst src size s.mem landed := by
  simp only [abandonedMem, hd, if_pos hm]

theorem abandonedBeats_of_moves {dst src size : Nat} (hd : decode s.cfg.xlen w = .ok (.copy dst src size))
    (hm : copyMoves s.cfg dst src size = true) :
    abandonedBeats w issued s = (copyMove s.cfg.vlen dst src size s.mem).2.take issued := by
  simp only [abandonedBeats, hd, if_pos hm]

variable (h : ∀ dst src size, decode s.cfg.xlen w = .ok (.copy dst src size) → ¬ copyMoves s.cfg dst src size = true)
include h

/-- A word that is no `COPY` moving bytes leaves `MEM` as it was when a reset cuts it short. -/
theorem abandonedMem_of_not_moves : abandonedMem w landed s = s.mem := by
  unfold abandonedMem
  split
  · rename_i dst src size hd
    exact if_neg (h dst src size hd)
  · rfl

/-- A word that is no `COPY` moving bytes issues no beat before a reset cuts it short. -/
theorem abandonedBeats_of_not_moves : abandonedBeats w issued s = [] := by
  rcases abandonedBeats_cases w issued s with ⟨dst, src, size, hd, hm, -⟩ | h0
  · exact absurd hm (h dst src size hd)
  · exact h0

end abandoned

/-- Settles O55: the event resets the registers and, of a `COPY` that moves bytes, keeps the landed bytes and the first
beats. -/
theorem resetAbandonsACommand : Obligations.ResetAbandonsACommand := by
  intro s w landed issued rest hc hi
  refine ⟨_, step_of_inputs hc hi, rfl, fun dst src size hd h1 hsrc hdst hapart => ?moves, fun h => ?nothingMoves⟩
  case moves =>
    have hm : copyMoves s.cfg dst src size = true := copyMoves_iff_apart.2 ⟨h1, hsrc, hdst, hapart⟩
    have hmem := abandonedMem_of_moves (s := s.setInputs rest) landed hd hm
    have hbeats := abandonedBeats_of_moves (s := s.setInputs rest) issued hd hm
    simp only [State.mem_resetRegisters, State.mem_recordBeats, State.mem_setMem, State.beats_resetRegisters,
      State.beats_recordBeats, State.beats_setMem, hmem, hbeats, copyMove_beats hapart, copyLanded_read]
    refine ⟨fun a hle hlt => ?_, fun a ha => ?_, rfl⟩
    · simp only [hle, hlt, true_and, State.mem_setInputs]
    · rw [if_neg (by omega), State.mem_setInputs]
  case nothingMoves =>
    have hnot : ∀ dst src size, decode s.cfg.xlen w = .ok (.copy dst src size) → ¬ copyMoves s.cfg dst src size = true :=
      fun dst src size hd => mt copyMoves_iff_apart.1 (h dst src size hd)
    have hbeats := abandonedBeats_of_not_moves (s := s.setInputs rest) issued hnot
    refine ⟨abandonedMem_of_not_moves (s := s.setInputs rest) landed hnot, ?_⟩
    simp only [State.beats_resetRegisters, State.beats_recordBeats, State.beats_setMem, State.beats_setInputs, hbeats,
      List.append_nil]

/-! ### A `COPY` into the free run (R155) -/

/-- Positions in a run that does not reach the end of the storage stand one after the other (10_state.md R21). -/
theorem State.wrap_add_of_lt {s : State} {p k i : Nat} (h : s.wrap p k + i < s.cap) :
    s.wrap p (k + i) = s.wrap p k + i := by
  rw [State.wrap, ← ringWrap_ringWrap]
  exact Nat.mod_eq_of_lt h

/-- A filled position is none of the free ones ahead of `HEAD` (10_state.md R24). -/
theorem State.wrap_tail_ne_wrap_head {s : State} (hr : s.ringOk) (hv : s.valid = true) {j i : Nat} (hj : j < s.filled)
    (hi : i < s.free) : s.wrap s.tail j ≠ s.wrap s.head i := by
  rw [s.wrap_head hr hv]
  intro h
  have hsum := s.filled_add_free hr hv
  have := ringWrap_inj (by omega) (by omega) h
  omega

/-- No filled position lies in a run of free positions that does not reach the end of the storage. -/
theorem State.wrap_tail_outside_run {s : State} (hr : s.ringOk) (hv : s.valid = true) {k size j : Nat}
    (hend : s.wrap s.head k + size ≤ s.cap) (hfree : k + size ≤ s.free) (hj : j < s.filled) :
    s.wrap s.tail j < s.wrap s.head k ∨ s.wrap s.head k + size ≤ s.wrap s.tail j := by
  by_contra hin
  obtain ⟨i, hi⟩ := Nat.exists_eq_add_of_le (Nat.le_of_not_lt fun h => hin (.inl h))
  have hpos : s.wrap s.head (k + i) = s.wrap s.head k + i := State.wrap_add_of_lt (by omega)
  exact State.wrap_tail_ne_wrap_head hr hv hj (by omega) (hi.trans hpos.symm)

/-- Memory that differs from `MEM` at no filled position leaves the contents as they are. -/
theorem State.contents_congr {s t : State} (hc : t.cap = s.cap) (hh : t.head = s.head) (ht : t.tail = s.tail)
    (hbyte : ∀ j < s.filled, t.ringByte (s.wrap s.tail j) = s.ringByte (s.wrap s.tail j)) :
    t.contents = s.contents := by
  rw [State.contents_eq, State.contents_eq, State.filled_congr s t hc hh ht, ht]
  refine List.map_congr_left fun j hj => ?_
  rw [State.wrap_congr s t hc]
  exact hbyte j (List.mem_range.1 hj)

/-- Settles O59: the destination is the run of positions `k` to `k + size - 1` ahead of `HEAD`, which are free, so no
filled position is among them. -/
theorem copyIntoTheFreeRunKeepsTheRing : Obligations.CopyIntoTheFreeRunKeepsTheRing := by
  rintro s k dst src size hcfg hr hv ⟨rfl, hend, hfree⟩ h1 hsrc hapart
  have hpos := s.wrap_lt hr hv s.head k
  have hstorage := s.storage_inside hcfg hr hv
  have hdst : positionAddress s.cfg (s.wrap s.head k) + size ≤ s.cfg.memBytes := by
    unfold positionAddress
    omega
  refine ⟨_, exec_copy_moves h1 hsrc hdst hapart, State.contents_congr rfl rfl rfl fun j hj => ?contents,
    fun i hi => ?placed⟩
  case contents =>
    have hout := State.wrap_tail_outside_run hr hv (k := k) (size := size) (by omega) (by omega) hj
    exact copyMove_read_outside (x := positionAddress s.cfg (s.wrap s.tail j)) hapart s.mem (by
      unfold positionAddress
      omega)
  case placed =>
    have hrun : s.wrap s.head (k + i) = s.wrap s.head k + i := State.wrap_add_of_lt (by omega)
    have haddr : positionAddress s.cfg (s.wrap s.head (k + i)) = positionAddress s.cfg (s.wrap s.head k) + i := by
      rw [hrun, positionAddress, positionAddress, Nat.add_assoc]
    exact (congrArg _ haddr).trans (copyMove_read_dst hapart s.mem hi)

end Sys2Proof.Machine
end
